-- ==== Sys2Proof/Word.lean ====
section
/-! DEFINITION. The word types of the engine (rules R5, R11, R21, R23, R25). -/

namespace Sys2Proof

/-- A memory cell, a general register, a timer, an 8-bit immediate (rules R5, R21, R60). -/
abbrev Byte := BitVec 8

/-- An instruction word, PC, I and a stack entry (rules R5, R23, R25, R26). -/
abbrev Word := BitVec 16

/-- A 4-bit field: a register index `x` or `y`, the immediate `n`, the family (rule R81). -/
abbrev Nibble := BitVec 4

/-- The 12-bit address immediate `nnn` (rule R81). -/
abbrev Addr12 := BitVec 12

/-- A logical key id, 0 to 15 (rules R31, R34). -/
abbrev KeyId := BitVec 4

/-- One sample of the key port: "16 bits (a set of ids 0–15)" (rule R37); bit `k` says that key `k` is held. -/
abbrev KeySet := BitVec 16

end Sys2Proof
end

