-- ==== Sys2Proof/Config.lean ====
section
/-! DEFINITION. The parameters the spec leaves open (rule R6), the compatibility modes (rule R7), the quirks
(rules R8, R9), and the free values: constants with no body, of which nothing can be proved. -/

namespace Sys2Proof

/-- Rule R7: the compatibility mode. -/
inductive Mode where
  | chip8
  | schip
  | xochip
deriving DecidableEq, Repr

/-- Rule R9, `shift_src`: which register 8XY6 and 8XYE shift. -/
inductive ShiftSrc where
  | vy
  | vx
deriving DecidableEq, Repr

/-- Rule R9, `mem_inc`: what FX55 and FX65 do to I. -/
inductive MemInc where
  | xPlus1
  | unchanged
  | x
deriving DecidableEq, Repr

/-- Rule R9: the three quirk fields of one mode. -/
structure Quirks where
  shiftSrc     : ShiftSrc
  logicVfReset : Bool
  memInc       : MemInc
deriving DecidableEq, Repr

/-- Rule R6, `QUIRKS(MODE)`: the quirks of each mode, written out as data. -/
structure QuirkTable where
  chip8  : Quirks
  schip  : Quirks
  xochip : Quirks
deriving DecidableEq, Repr

/-- Rule R6, `VF_ORDER`. -/
inductive VfOrder where
  | flagLast
  | resultLast
deriving DecidableEq, Repr

/-- Rule R6, `FX1E_VF_NO_OVERFLOW`. -/
inductive IndexNoOverflow where
  | keep
  | clear
deriving DecidableEq, Repr

/-- Rule R6, `GLYPH_DIGIT_POLICY`. -/
inductive GlyphDigitPolicy where
  | fault
  | maskLowNibble
  | unmasked
deriving DecidableEq, Repr

/-- Rule R6, `KEY_INDEX_POLICY`. -/
inductive KeyIndexPolicy where
  | fault
  | notHeld
deriving DecidableEq, Repr

/-- Rule R6, `BEEP_SAMPLE`. -/
inductive BeepSample where
  | postDecrement
  | preDecrement
deriving DecidableEq, Repr

/-- Rule R6, `FONT_WRITE_POLICY`. -/
inductive FontWritePolicy where
  | fault
  | write
deriving DecidableEq, Repr

/-- Rule R6: the parameters that the running engine consults, as plain data that `State` carries and no step
changes. A statement about every state is thus a statement for every value of each. `MODE` is a state element of
its own (rule R20), and `FONT` is consulted at initialisation only (`Machine.boot`). -/
structure Params where
  ipf              : Nat
  quirks           : QuirkTable
  vfOrder          : VfOrder
  fx1eNoOverflow   : IndexNoOverflow
  glyphDigitPolicy : GlyphDigitPolicy
  keyIndexPolicy   : KeyIndexPolicy
  beepSample       : BeepSample
  fontWritePolicy  : FontWritePolicy
deriving DecidableEq, Repr

/-- Free value (log entry 1): the predecessor of `IPF` in the state after reset. The spec gives `IPF` no value, only
`IPF ≥ 1` (rule R6, decision D2). -/
opaque Config.freeIpfPred : Nat

/-- Free value (log entry 2): the sample of the key port at the `n`-th draw when the environment named none
(rules R17, R34). -/
opaque Config.freeKeys : Nat → KeySet

/-- Free value (log entry 2): the random byte at the `n`-th draw when the environment named none (rules R17, R35). -/
opaque Config.freeRand : Nat → Byte

/-- Free value (log entry 2): the key proposed to `choose` at the `n`-th draw when the environment named none
(rules R17, R213). -/
opaque Config.freeChoice : Nat → KeyId

end Sys2Proof
end

