-- ==== Sys2Proof/Syntax.lean ====
section
/-! DEFINITION. The instructions: one constructor per row of spec/opcode_table.json (rule R92), in the table's
order, with the fields of rule R81 as operands. -/

namespace Sys2Proof

/-- The 34 instructions. `x` and `y` are register indices, `n`, `nn` and `nnn` the immediates (rule R83). The low
nibble that 5XYN and 9XYN ignore (rules R88, R93) is kept, so that the instruction still determines its word. -/
inductive Instr where
  /-- 00E0 CLS -/
  | cls
  /-- 00EE RET -/
  | ret
  /-- 1NNN JP nnn -/
  | jp (nnn : Addr12)
  /-- 2NNN CALL nnn -/
  | call (nnn : Addr12)
  /-- 3XNN SE Vx, nn -/
  | seImm (x : Nibble) (nn : Byte)
  /-- 4XNN SNE Vx, nn -/
  | sneImm (x : Nibble) (nn : Byte)
  /-- 5XYN SE Vx, Vy (n ignored) -/
  | seReg (x y n : Nibble)
  /-- 6XNN LD Vx, nn -/
  | ldImm (x : Nibble) (nn : Byte)
  /-- 7XNN ADD Vx, nn -/
  | addImm (x : Nibble) (nn : Byte)
  /-- 8XY0 LD Vx, Vy -/
  | ldReg (x y : Nibble)
  /-- 8XY1 OR Vx, Vy -/
  | orReg (x y : Nibble)
  /-- 8XY2 AND Vx, Vy -/
  | andReg (x y : Nibble)
  /-- 8XY3 XOR Vx, Vy -/
  | xorReg (x y : Nibble)
  /-- 8XY4 ADD Vx, Vy -/
  | addReg (x y : Nibble)
  /-- 8XY5 SUB Vx, Vy -/
  | subReg (x y : Nibble)
  /-- 8XY6 SHR Vx, Vy -/
  | shrReg (x y : Nibble)
  /-- 8XY7 SUBN Vx, Vy -/
  | subnReg (x y : Nibble)
  /-- 8XYE SHL Vx, Vy -/
  | shlReg (x y : Nibble)
  /-- 9XYN SNE Vx, Vy (n ignored) -/
  | sneReg (x y n : Nibble)
  /-- ANNN LD I, nnn -/
  | ldI (nnn : Addr12)
  /-- BNNN JP V0, nnn -/
  | jpV0 (nnn : Addr12)
  /-- CXNN RND Vx, nn -/
  | rnd (x : Nibble) (nn : Byte)
  /-- DXYN DRW Vx, Vy, n -/
  | drw (x y n : Nibble)
  /-- EX9E SKP Vx -/
  | skp (x : Nibble)
  /-- EXA1 SKNP Vx -/
  | sknp (x : Nibble)
  /-- FX07 LD Vx, DT -/
  | ldVxDt (x : Nibble)
  /-- FX0A LD Vx, K -/
  | ldVxK (x : Nibble)
  /-- FX15 LD DT, Vx -/
  | ldDtVx (x : Nibble)
  /-- FX18 LD ST, Vx -/
  | ldStVx (x : Nibble)
  /-- FX1E ADD I, Vx -/
  | addI (x : Nibble)
  /-- FX29 LD F, Vx -/
  | ldF (x : Nibble)
  /-- FX33 LD B, Vx -/
  | ldB (x : Nibble)
  /-- FX55 LD [I], Vx -/
  | storeRegs (x : Nibble)
  /-- FX65 LD Vx, [I] -/
  | loadRegs (x : Nibble)
deriving DecidableEq, Repr

end Sys2Proof
end

