-- ==== Sys2Proof/WellFormed.lean ====
section
/-! DEFINITION. What is well formed: the operand ranges of rule R83, the words that name an instruction (rules R92,
R96), the parameters of rule R6, and what initialisation accepts (rules R62, R280, R281). -/

namespace Sys2Proof

/-- Rule R83: "`x` and `y` are register indices from 0 to 15". -/
def regIndexOk (k : Nat) : Bool := k < 16

/-- Rule R83: "`n` is the row count of DXYN, from 0 to 15". -/
def nibbleOk (k : Nat) : Bool := k < 16

/-- Rule R83: `nn` is an 8-bit value. -/
def byteOk (k : Nat) : Bool := k < 256

/-- Rule R83: `nnn` is a 12-bit address. -/
def addr12Ok (k : Nat) : Bool := k < 4096

/-- The operand ranges of every instruction. The operand types have exactly these ranges, so every term of `Instr`
meets them (`Laws.OperandsInRange`); the checks say what the types say, in the spec's numbers. -/
def Instr.wellFormed : Instr → Bool
  | .cls | .ret => true
  | .jp nnn | .call nnn | .ldI nnn | .jpV0 nnn => addr12Ok nnn.toNat
  | .seImm x nn | .sneImm x nn | .ldImm x nn | .addImm x nn | .rnd x nn =>
    regIndexOk x.toNat && byteOk nn.toNat
  | .seReg x y n | .sneReg x y n | .drw x y n =>
    regIndexOk x.toNat && regIndexOk y.toNat && nibbleOk n.toNat
  | .ldReg x y | .orReg x y | .andReg x y | .xorReg x y | .addReg x y | .subReg x y
  | .shrReg x y | .subnReg x y | .shlReg x y => regIndexOk x.toNat && regIndexOk y.toNat
  | .skp x | .sknp x | .ldVxDt x | .ldVxK x | .ldDtVx x | .ldStVx x | .addI x | .ldF x
  | .ldB x | .storeRegs x | .loadRegs x => regIndexOk x.toNat

/-- One row of the opcode map: a word `w` selects it when `w & mask = pattern` (rule R92). -/
structure OpcodeRow where
  mask    : Word
  pattern : Word
deriving DecidableEq, Repr

/-- A row is well formed when its pattern sets no bit outside its mask. -/
def OpcodeRow.wellFormed (r : OpcodeRow) : Bool := r.pattern &&& r.mask == r.pattern

/-- Rule R92: the word selects the row. -/
def OpcodeRow.selects (r : OpcodeRow) (w : Word) : Bool := w &&& r.mask == r.pattern

/-- Rule R92, families 0x0 to 0x7. -/
def opcodeRowsLow : List OpcodeRow :=
  [⟨0xFFFF, 0x00E0⟩, ⟨0xFFFF, 0x00EE⟩, ⟨0xF000, 0x1000⟩, ⟨0xF000, 0x2000⟩, ⟨0xF000, 0x3000⟩,
   ⟨0xF000, 0x4000⟩, ⟨0xF000, 0x5000⟩, ⟨0xF000, 0x6000⟩, ⟨0xF000, 0x7000⟩]

/-- Rules R89 and R92, family 0x8. -/
def opcodeRowsAlu : List OpcodeRow :=
  [⟨0xF00F, 0x8000⟩, ⟨0xF00F, 0x8001⟩, ⟨0xF00F, 0x8002⟩, ⟨0xF00F, 0x8003⟩, ⟨0xF00F, 0x8004⟩,
   ⟨0xF00F, 0x8005⟩, ⟨0xF00F, 0x8006⟩, ⟨0xF00F, 0x8007⟩, ⟨0xF00F, 0x800E⟩]

/-- Rules R90 to R92, families 0x9 to 0xF. -/
def opcodeRowsHigh : List OpcodeRow :=
  [⟨0xF000, 0x9000⟩, ⟨0xF000, 0xA000⟩, ⟨0xF000, 0xB000⟩, ⟨0xF000, 0xC000⟩, ⟨0xF000, 0xD000⟩,
   ⟨0xF0FF, 0xE09E⟩, ⟨0xF0FF, 0xE0A1⟩, ⟨0xF0FF, 0xF007⟩, ⟨0xF0FF, 0xF00A⟩, ⟨0xF0FF, 0xF015⟩,
   ⟨0xF0FF, 0xF018⟩, ⟨0xF0FF, 0xF01E⟩, ⟨0xF0FF, 0xF029⟩, ⟨0xF0FF, 0xF033⟩, ⟨0xF0FF, 0xF055⟩,
   ⟨0xF0FF, 0xF065⟩]

/-- Rule R92: the 34 instruction rows of the opcode map. -/
def opcodeRows : List OpcodeRow := opcodeRowsLow ++ opcodeRowsAlu ++ opcodeRowsHigh

/-- Rules R92 and R96: the word names an instruction of this engine. -/
def supportedWord (w : Word) : Bool := opcodeRows.any (·.selects w)

/-- Rule R6: `IPF` is a natural number ≥ 1; the other parameters are constrained by their types. -/
def Params.wellFormed (p : Params) : Bool := 0 < p.ipf

/-- Rule R62: the image fits the load window, "L is at most 3584". -/
def imageOk (image : List Byte) : Bool := image.length + 0x200 ≤ 4096

/-- Rule R281: the mode selector is one of the three values. -/
def selectorOk (sel : Nat) : Bool := sel ≤ 2

end Sys2Proof
end

