-- ==== Sys2Proof/Decode.lean ====
section
/-! DEFINITION. The instruction decoder (rules R80 to R97): fields, dispatch choice, rejection by name; and the
encoder, written from the same table (rule R92). -/

namespace Sys2Proof

/-- Rule R81: the tuple `(family, x, y, n, nn, nnn)`. -/
structure Fields where
  family : Nibble
  x      : Nibble
  y      : Nibble
  n      : Nibble
  nn     : Byte
  nnn    : Addr12
deriving DecidableEq, Repr

/-- Rule R81: field extraction. Rule R84: it never fails. -/
def decodeFields (w : Word) : Fields where
  family := w.extractLsb' 12 4
  x      := w.extractLsb' 8 4
  y      := w.extractLsb' 4 4
  n      := w.extractLsb' 0 4
  nn     := w.extractLsb' 0 8
  nnn    := w.extractLsb' 0 12

/-- Why the decoder names no instruction. -/
inductive Reject where
  /-- The word is one of rule R96 (rule R122 among them); executing it raises `UnsupportedOpcode`. -/
  | unsupported (w : Word)
  /-- Fewer than two bytes were given; an instruction is always two bytes (rules R80, R98). -/
  | truncated
deriving DecidableEq, Repr

/-- Rule R86: family 0x0 is told apart on the whole word. -/
def selectFamily0 (w : Word) : Except Reject Instr :=
  if w = 0x00E0#16 then .ok .cls
  else if w = 0x00EE#16 then .ok .ret
  else .error (.unsupported w)

/-- Rule R89: family 0x8 sub-dispatches on `n`. -/
def selectFamily8 (w : Word) (f : Fields) : Except Reject Instr :=
  match f.n with
  | 0x0#4 => .ok (.ldReg f.x f.y)
  | 0x1#4 => .ok (.orReg f.x f.y)
  | 0x2#4 => .ok (.andReg f.x f.y)
  | 0x3#4 => .ok (.xorReg f.x f.y)
  | 0x4#4 => .ok (.addReg f.x f.y)
  | 0x5#4 => .ok (.subReg f.x f.y)
  | 0x6#4 => .ok (.shrReg f.x f.y)
  | 0x7#4 => .ok (.subnReg f.x f.y)
  | 0xE#4 => .ok (.shlReg f.x f.y)
  | _ => .error (.unsupported w)

/-- Rule R90: family 0xE sub-dispatches on `nn`. -/
def selectFamilyE (w : Word) (f : Fields) : Except Reject Instr :=
  match f.nn with
  | 0x9E#8 => .ok (.skp f.x)
  | 0xA1#8 => .ok (.sknp f.x)
  | _ => .error (.unsupported w)

/-- Rule R91: family 0xF sub-dispatches on `nn`. -/
def selectFamilyF (w : Word) (f : Fields) : Except Reject Instr :=
  match f.nn with
  | 0x07#8 => .ok (.ldVxDt f.x)
  | 0x0A#8 => .ok (.ldVxK f.x)
  | 0x15#8 => .ok (.ldDtVx f.x)
  | 0x18#8 => .ok (.ldStVx f.x)
  | 0x1E#8 => .ok (.addI f.x)
  | 0x29#8 => .ok (.ldF f.x)
  | 0x33#8 => .ok (.ldB f.x)
  | 0x55#8 => .ok (.storeRegs f.x)
  | 0x65#8 => .ok (.loadRegs f.x)
  | _ => .error (.unsupported w)

/-- Rules R85 to R92: the dispatch choice. It does not depend on the mode (rule R94), since it is given none. -/
def decodeWord (w : Word) : Except Reject Instr :=
  let f := decodeFields w
  match f.family with
  | 0x0#4 => selectFamily0 w
  | 0x1#4 => .ok (.jp f.nnn)
  | 0x2#4 => .ok (.call f.nnn)
  | 0x3#4 => .ok (.seImm f.x f.nn)
  | 0x4#4 => .ok (.sneImm f.x f.nn)
  | 0x5#4 => .ok (.seReg f.x f.y f.n)
  | 0x6#4 => .ok (.ldImm f.x f.nn)
  | 0x7#4 => .ok (.addImm f.x f.nn)
  | 0x8#4 => selectFamily8 w f
  | 0x9#4 => .ok (.sneReg f.x f.y f.n)
  | 0xA#4 => .ok (.ldI f.nnn)
  | 0xB#4 => .ok (.jpV0 f.nnn)
  | 0xC#4 => .ok (.rnd f.x f.nn)
  | 0xD#4 => .ok (.drw f.x f.y f.n)
  | 0xE#4 => selectFamilyE w f
  | 0xF#4 => selectFamilyF w f
  | _ => .error (.unsupported w)

/-- Rules R70, R80: the word of two bytes, the first in bits 15:8. -/
def wordOfBytes (hi lo : Byte) : Word := hi ++ lo

/-- Decode the instruction at the head of a byte stream and give the rest (rule R98: always two bytes). -/
def decode : List Byte → Except Reject (Instr × List Byte)
  | hi :: lo :: rest =>
    match decodeWord (wordOfBytes hi lo) with
    | .ok i => .ok (i, rest)
    | .error r => .error r
  | _ => .error .truncated

/-- A word of the shape family, 12-bit immediate. -/
def packNNN (family : Nibble) (nnn : Addr12) : Word := family ++ nnn

/-- A word of the shape family, x, 8-bit immediate or sub-opcode. -/
def packXNN (family x : Nibble) (nn : Byte) : Word := (family ++ x : BitVec 8) ++ nn

/-- A word of the shape family, x, y, 4-bit immediate or sub-opcode. -/
def packXYN (family x y n : Nibble) : Word := (family ++ x : BitVec 8) ++ (y ++ n : BitVec 8)

/-- Rule R92: the word of an instruction. -/
def encode : Instr → Word
  | .cls           => 0x00E0
  | .ret           => 0x00EE
  | .jp nnn        => packNNN 0x1 nnn
  | .call nnn      => packNNN 0x2 nnn
  | .seImm x nn    => packXNN 0x3 x nn
  | .sneImm x nn   => packXNN 0x4 x nn
  | .seReg x y n   => packXYN 0x5 x y n
  | .ldImm x nn    => packXNN 0x6 x nn
  | .addImm x nn   => packXNN 0x7 x nn
  | .ldReg x y     => packXYN 0x8 x y 0x0
  | .orReg x y     => packXYN 0x8 x y 0x1
  | .andReg x y    => packXYN 0x8 x y 0x2
  | .xorReg x y    => packXYN 0x8 x y 0x3
  | .addReg x y    => packXYN 0x8 x y 0x4
  | .subReg x y    => packXYN 0x8 x y 0x5
  | .shrReg x y    => packXYN 0x8 x y 0x6
  | .subnReg x y   => packXYN 0x8 x y 0x7
  | .shlReg x y    => packXYN 0x8 x y 0xE
  | .sneReg x y n  => packXYN 0x9 x y n
  | .ldI nnn       => packNNN 0xA nnn
  | .jpV0 nnn      => packNNN 0xB nnn
  | .rnd x nn      => packXNN 0xC x nn
  | .drw x y n     => packXYN 0xD x y n
  | .skp x         => packXNN 0xE x 0x9E
  | .sknp x        => packXNN 0xE x 0xA1
  | .ldVxDt x      => packXNN 0xF x 0x07
  | .ldVxK x       => packXNN 0xF x 0x0A
  | .ldDtVx x      => packXNN 0xF x 0x15
  | .ldStVx x      => packXNN 0xF x 0x18
  | .addI x        => packXNN 0xF x 0x1E
  | .ldF x         => packXNN 0xF x 0x29
  | .ldB x         => packXNN 0xF x 0x33
  | .storeRegs x   => packXNN 0xF x 0x55
  | .loadRegs x    => packXNN 0xF x 0x65

/-- Rule R70: the two bytes of a word as memory holds them, high byte first. -/
def bytesOfWord (w : Word) : List Byte := [w.extractLsb' 8 8, w.extractLsb' 0 8]

/-- The bytes of an instruction in memory order. -/
def encodeBytes (i : Instr) : List Byte := bytesOfWord (encode i)

/-- The 16-bit word that the opcode table numbers as the low `nbits` bits of `w` (one word of 16 bits: every
instruction has one length, rule R80). -/
def tableWord (nbits w : Nat) : Word := BitVec.ofNat 16 (w % 2 ^ nbits)

/-- What the decoder reads from the bytes of a table word laid out in memory order; none where it rejects. -/
def decodeTableWord (nbits w : Nat) : Option Instr :=
  match decode (bytesOfWord (tableWord nbits w)) with
  | .ok (i, _) => some i
  | .error _ => none

end Sys2Proof
end

