-- ==== Sys2Proof/Machine/Defaults.lean ====
section
/-! DEFINITION. The defaults that the spec names for a simulator (rules R6, R9), used by the state after reset. -/

namespace Sys2Proof.Machine

/-- Rule R9, row CHIP8. PRESUMED (log entry 4). -/
def quirksChip8 : Quirks := { shiftSrc := .vy, logicVfReset := true, memInc := .xPlus1 }

/-- Rule R9, row SCHIP. PRESUMED (log entry 4). -/
def quirksSchip : Quirks := { shiftSrc := .vx, logicVfReset := false, memInc := .unchanged }

/-- Rule R9, row XOCHIP. PRESUMED (log entry 4). -/
def quirksXochip : Quirks := { shiftSrc := .vy, logicVfReset := false, memInc := .xPlus1 }

/-- Rule R9: the default `QUIRKS(MODE)`. -/
def defaultQuirks : QuirkTable := { chip8 := quirksChip8, schip := quirksSchip, xochip := quirksXochip }

/-- Rule R6: each parameter at its "default for a simulator". `IPF` has none, so it is a free value that is at
least 1 (log entry 1). DESIGN CHOICE (log entry 5): the state after reset carries these defaults. -/
def defaultParams : Params where
  ipf              := Config.freeIpfPred + 1
  quirks           := defaultQuirks
  vfOrder          := .flagLast
  fx1eNoOverflow   := .keep
  glyphDigitPolicy := .fault
  keyIndexPolicy   := .fault
  beepSample       := .postDecrement
  fontWritePolicy  := .fault

end Sys2Proof.Machine
end

