-- ==== Sys2Proof/Machine/Memory.lean ====
section
/-! DEFINITION. The memory store (rules R60 to R73): 4096 byte cells held as the list of the cells that differ from
their contents after initialisation with the default font, in one canonical form; the default font table. -/

namespace Sys2Proof.Machine

/-- Rule R63: `FONT_BASE`. -/
abbrev fontBase : Nat := 0x050

/-- Rule R63: the first address after the 80 bytes of the font table. -/
abbrev fontEnd : Nat := 0x0A0

/-- Rule R60: the number of cells. -/
abbrev memorySize : Nat := 4096

/-- Rule R63, glyphs 0 to 7 of the default table. PRESUMED (log entry 3): the bytes are general knowledge. -/
def fontGlyphsLow : List Byte :=
  [0xF0, 0x90, 0x90, 0x90, 0xF0,  0x20, 0x60, 0x20, 0x20, 0x70,
   0xF0, 0x10, 0xF0, 0x80, 0xF0,  0xF0, 0x10, 0xF0, 0x10, 0xF0,
   0x90, 0x90, 0xF0, 0x10, 0x10,  0xF0, 0x80, 0xF0, 0x10, 0xF0,
   0xF0, 0x80, 0xF0, 0x90, 0xF0,  0xF0, 0x10, 0x20, 0x40, 0x40]

/-- Rule R63, glyphs 8 to F of the default table. PRESUMED (log entry 3). -/
def fontGlyphsHigh : List Byte :=
  [0xF0, 0x90, 0xF0, 0x90, 0xF0,  0xF0, 0x90, 0xF0, 0x10, 0xF0,
   0xF0, 0x90, 0xF0, 0x90, 0x90,  0xE0, 0x90, 0xE0, 0x90, 0xE0,
   0xF0, 0x80, 0x80, 0x80, 0xF0,  0xE0, 0x90, 0x90, 0x90, 0xE0,
   0xF0, 0x80, 0xF0, 0x80, 0xF0,  0xF0, 0x80, 0xF0, 0x80, 0x80]

/-- Rule R63: the default value of the parameter `FONT`. -/
def defaultFontBytes : List Byte := fontGlyphsLow ++ fontGlyphsHigh

/-- The default `FONT` with its length of 80 bytes (rule R6). -/
def defaultFont : Vector Byte 80 := ⟨defaultFontBytes.toArray, by decide⟩

/-- Memory as data: (address, byte) pairs, addresses strictly rising, no pair equal to what an unlisted address
reads as. -/
abbrev Memory := List Host.Cell

/-- What an unlisted address reads as: its contents after initialisation with the default font and an empty image
(rules R40, R61): the font table at 0x050–0x09F, 0 elsewhere. -/
def Memory.unlisted (a : Nat) : Byte :=
  if fontBase ≤ a ∧ a < fontEnd then defaultFontBytes.getD (a - fontBase) 0 else 0

/-- Rule R66: `MemRead(a, 1)`. -/
def Memory.read : Memory → Nat → Byte
  | [], a => Memory.unlisted a
  | (k, c) :: m, a => if k = a then c else Memory.read m a

/-- The head of the list after a write: the pair, or nothing where the byte is what the address reads as anyway. -/
def Memory.place (a : Nat) (b : Byte) (m : Memory) : Memory :=
  if b = Memory.unlisted a then m else (a, b) :: m

/-- Rule R67: `MemWrite(a, 1, b)`, keeping the canonical form. -/
def Memory.write : Memory → Nat → Byte → Memory
  | [], a, b => Memory.place a b []
  | (k, c) :: m, a, b =>
    if a < k then Memory.place a b ((k, c) :: m)
    else if a = k then Memory.place a b m
    else (k, c) :: Memory.write m a b

/-- The bytes at `a`, `a + 1`, …, `a + n - 1`, in address order. -/
def Memory.readBytes (m : Memory) (a : Nat) : Nat → List Byte
  | 0 => []
  | n + 1 => m.read a :: Memory.readBytes m (a + 1) n

/-- Bytes written at `a`, `a + 1`, …, in order. -/
def Memory.writeBytes (m : Memory) (a : Nat) : List Byte → Memory
  | [] => m
  | b :: bs => Memory.writeBytes (m.write a b) (a + 1) bs

/-- The canonical form from address `lo` on. -/
def Memory.wfFrom (lo : Nat) : Memory → Bool
  | [] => true
  | (a, b) :: m => lo ≤ a && a < memorySize && b != Memory.unlisted a && Memory.wfFrom (a + 1) m

/-- The canonical form: addresses strictly rising, inside the address space, no pair equal to what an unlisted
address reads as. -/
def Memory.wf (m : Memory) : Bool := Memory.wfFrom 0 m

/-- Rules R101, R70: the big-endian word at `a`. -/
def Memory.readWord (m : Memory) (a : Nat) : Word := m.read a ++ m.read (a + 1)

end Sys2Proof.Machine
end

