-- ==== Sys2Proof/Machine/State.lean ====
section
/-! DEFINITION. The engine's state as plain data (rules R20 to R42), the reasons a step can stop, and the state after
reset (rules R40, R282). -/

namespace Sys2Proof.Machine

/-- Rule R30: the display shadow, 32 rows of 64 pixels; in a row's word the most significant bit is column 0. -/
abbrev Framebuffer := Vector (BitVec 64) 32

/-- Rule R240: the fatal errors. -/
inductive ErrorCode where
  | loadError
  | modeError
  | stackOverflow
  | stackUnderflow
  | unsupportedOpcode
  | addressError
  | fontRegionWrite
  | keyIndexRange
  | glyphDigitRange
deriving DecidableEq, Repr

/-- Rule R36: `HALT`. -/
inductive Halt where
  | running
  | halted (code : ErrorCode) (word : Option Word) (pc : Word)
deriving DecidableEq, Repr

/-- Rule R37: the events on the engine's output ports, each call one event in the step that makes it (decision D1).
`dispDraw` carries the set of toggled cells (rule R192). -/
inductive PortEvent where
  | dispClear
  | dispDraw (mask : Framebuffer)
  | startBeep
  | stopBeep
deriving DecidableEq, Repr

/-- The MODEL's own fields, not the spec's: the free inputs of the steps to come (rules R17, R34, R35, R213). The
lists hold the samples that the environment has named, the next one first; where a list is empty the sample is a
free value of `Config` at the number of draws so far (log entry 2). -/
structure Inputs where
  keySamples : List KeySet
  randBytes  : List Byte
  choices    : List KeyId
  draws      : Nat
deriving DecidableEq, Repr

/-- Rule R20: the engine state; then the parameters (rule R6), which no step changes; then two fields of the model's
own, the free inputs and the record of port events (rule R37), which no instruction reads back. -/
structure State where
  mem     : Memory
  v       : Vector Byte 16
  pc      : Word
  idx     : Word
  stack   : Vector Word 16
  sp      : Fin 17
  dt      : Byte
  st      : Byte
  beep    : Bool
  cyc     : Nat
  latch   : Option KeyId
  fb      : Framebuffer
  mode    : Mode
  halt    : Halt
  params  : Params
  inputs  : Inputs
  portLog : List PortEvent
deriving DecidableEq, Repr

/-- Why the machine stops without a next state. -/
inductive Fault where
  /-- Raised by `step` in a state whose `HALT` is `Halted(...)`: "a halted engine takes no further step" (rules R36,
  R100). Safe: the spec gives no step there. The fatal errors themselves are next states (rule R243). -/
  | engineHalted
deriving DecidableEq, Repr

/-- Why an instruction has no meaning. -/
inductive Refusal where
  /-- Raised by `exec` for an instruction that has no meaning yet; no arm does so now. Safe: it claims nothing. -/
  | notModelled (mnemonic : String)
deriving DecidableEq, Repr

/-- The all-clear display shadow (rules R40, R120). -/
def Framebuffer.blank : Framebuffer := Vector.replicate 32 0

/-- Rules R40, R282: the state after successful initialisation with an empty image (decision D27), in mode CHIP8
(log entry 5), with nothing in the memory list, so that memory holds the font and zeros. -/
def State.reset : State where
  mem     := []
  v       := Vector.replicate 16 0
  pc      := 0x200
  idx     := 0
  stack   := Vector.replicate 16 0
  sp      := 0
  dt      := 0
  st      := 0
  beep    := false
  cyc     := 0
  latch   := none
  fb      := Framebuffer.blank
  mode    := .chip8
  halt    := .running
  params  := defaultParams
  inputs  := { keySamples := [], randBytes := [], choices := [], draws := 0 }
  portLog := []

end Sys2Proof.Machine
end

