-- ==== Sys2Proof/Machine/Ops.lean ====
section
/-! DEFINITION. The named operations over registers, stack, memory and ports, the free inputs, and the one operation
that raises a fatal error. They work on the state of the execute phase, in which `PC` already is the address of the
instruction plus 2 (rules R14, R102). -/

namespace Sys2Proof.Machine

/-- The outcome of a meaning. -/
abbrev Result := Host.Outcome State Fault Refusal

/-! Register file (rules R21 to R25). -/

/-- Rule R13: `V[x]`. -/
def State.getV (s : State) (x : Nibble) : Byte := s.v[x.toNat]'x.isLt

/-- Rule R13: `V[x] <- b`. -/
def State.setV (s : State) (x : Nibble) (b : Byte) : State := { s with v := s.v.set x.toNat b x.isLt }

/-- Rule R22: the register VF. -/
abbrev vfIndex : Nibble := 0xF#4

/-- `PC <- a`. -/
def State.setPc (s : State) (a : Word) : State := { s with pc := a }

/-- Rule R24: a skip adds 2 more to `PC`. -/
def State.skip (s : State) : State := s.setPc (s.pc + 2)

/-- Rules R24, R212: FX0A takes 2 from `PC`, so that the same instruction is fetched again. -/
def State.rewind (s : State) : State := s.setPc (s.pc - 2)

/-- `I <- a`. -/
def State.setI (s : State) (a : Word) : State := { s with idx := a }

/-! Fatal errors (rules R36, R240, R243). -/

/-- Rule R240: the numeric code. -/
def ErrorCode.number : ErrorCode → Nat
  | .loadError         => 1
  | .modeError         => 2
  | .stackOverflow     => 3
  | .stackUnderflow    => 4
  | .unsupportedOpcode => 5
  | .addressError      => 6
  | .fontRegionWrite   => 7
  | .keyIndexRange     => 8
  | .glyphDigitRange   => 9

/-- Rule R243: `HALT <- Halted(code, word, a)`, `PC` at the failing address, nothing else changed. -/
def State.haltAt (s : State) (code : ErrorCode) (word : Option Word) (a : Word) : State :=
  { s with pc := a, halt := .halted code word a }

/-- The address of the executing instruction: `PC` minus 2 (rule R14). -/
def State.instrAddr (s : State) : Word := s.pc - 2

/-- Rules R105, R243: `raise code` during the execution of the word `w`: the state before the step, halted. -/
def State.raiseWord (s : State) (code : ErrorCode) (w : Word) : State :=
  s.haltAt code (some w) s.instrAddr

/-- Rule R13: `raise code` in the meaning of `i`. The word recorded is the fetched one, since an instruction
determines its word. There is no return from an error (rule R244). -/
def State.raise (s : State) (code : ErrorCode) (i : Instr) : Result :=
  .next (s.raiseWord code (encode i))

/-- A checked operation as the outcome of `i`: its next state, or the error it raises. -/
def State.orRaise (s : State) (i : Instr) : Except ErrorCode State → Result
  | .ok t => .next t
  | .error code => s.raise code i

/-! Stack memory (rule R26). -/

/-- Rule R26: a push writes `STACK[SP]`, then increments `SP`; it fails when `SP = 16`. -/
def State.push (s : State) (a : Word) : Except ErrorCode State :=
  if h : s.sp.val < 16 then
    .ok { s with stack := s.stack.set s.sp.val a h, sp := ⟨s.sp.val + 1, by omega⟩ }
  else .error .stackOverflow

/-- Rule R26: a pop decrements `SP`, then reads `STACK[SP]`; it fails when `SP = 0`. -/
def State.pop (s : State) : Except ErrorCode (Word × State) :=
  if h : 0 < s.sp.val then
    .ok (s.stack[s.sp.val - 1]'(by omega), { s with sp := ⟨s.sp.val - 1, by omega⟩ })
  else .error .stackUnderflow

/-! Memory through `I` (rules R67 to R69). -/

/-- Rule R68: `m` bytes from `I` reach above 0xFFF; no check when `m = 0`. -/
def outOfRange (i : Word) (m : Nat) : Bool := 0 < m && i.toNat + m - 1 > 0xFFF

/-- Rule R69: `m` bytes from `I` meet the font region. -/
def meetsFont (i : Word) (m : Nat) : Bool := 0 < m && i.toNat < fontEnd && fontBase ≤ i.toNat + m - 1

/-- Rules R68, R245: read `m` bytes at `I`, after the range check. -/
def State.loadAtI (s : State) (m : Nat) : Except ErrorCode (List Byte) :=
  if outOfRange s.idx m then .error .addressError else .ok (s.mem.readBytes s.idx.toNat m)

/-- Rules R67 to R69, R245: write bytes at `I`, after the range check and then the font policy. -/
def State.storeAtI (s : State) (bs : List Byte) : Except ErrorCode State :=
  if outOfRange s.idx bs.length then .error .addressError
  else if s.params.fontWritePolicy = .fault ∧ meetsFont s.idx bs.length = true then .error .fontRegionWrite
  else .ok { s with mem := s.mem.writeBytes s.idx.toNat bs }

/-! Output ports (rule R37). -/

/-- One event on an output port; the newest event stands first. -/
def State.emit (s : State) (e : PortEvent) : State := { s with portLog := e :: s.portLog }

/-! Free inputs (rules R17, R34, R35, R213). -/

/-- Rule R34: the sample `Keys` of this step. -/
def State.keys (s : State) : KeySet :=
  match s.inputs.keySamples with
  | k :: _ => k
  | [] => Config.freeKeys s.inputs.draws

/-- The sample `Keys` is taken: the next sample is another one. -/
def State.keysTaken (s : State) : State :=
  { s with inputs := { s.inputs with keySamples := s.inputs.keySamples.tail, draws := s.inputs.draws + 1 } }

/-- Rule R35: the sample `Rand` of this step. -/
def State.rand (s : State) : Byte :=
  match s.inputs.randBytes with
  | b :: _ => b
  | [] => Config.freeRand s.inputs.draws

/-- The sample `Rand` is taken. -/
def State.randTaken (s : State) : State :=
  { s with inputs := { s.inputs with randBytes := s.inputs.randBytes.tail, draws := s.inputs.draws + 1 } }

/-- Rule R213: the key that the step's free input proposes to `choose`. -/
def State.choice (s : State) : KeyId :=
  match s.inputs.choices with
  | k :: _ => k
  | [] => Config.freeChoice s.inputs.draws

/-- The free input of `choose` is taken. -/
def State.choiceTaken (s : State) : State :=
  { s with inputs := { s.inputs with choices := s.inputs.choices.tail, draws := s.inputs.draws + 1 } }

/-- Rule R34: the key with id `k` is in the sample. -/
def keyHeld (keys : KeySet) (k : Nat) : Bool := keys.getLsbD k

/-- The lowest key of a sample, at or above `k` with `n` ids left to try; 0 for none. -/
def lowestFrom (keys : KeySet) (k : Nat) : Nat → KeyId
  | 0 => 0
  | n + 1 => if keyHeld keys k then BitVec.ofNat 4 k else lowestFrom keys (k + 1) n

/-- Rule R213: `choose(Keys)`, a member of a non-empty sample: the proposed key where it is a member (so any member can
be chosen), else the smallest id, as a deterministic simulator does. -/
def chooseKey (proposed : KeyId) (keys : KeySet) : KeyId :=
  if keyHeld keys proposed.toNat then proposed else lowestFrom keys 0 16

/-- Rule R31: `LATCH <- l`. -/
def State.setLatch (s : State) (l : Option KeyId) : State := { s with latch := l }

/-! Display shadow (rule R30). -/

/-- `FB[r][c]`. -/
def Framebuffer.pixel (fb : Framebuffer) (r : Fin 32) (c : Nat) : Bool := (fb[r.val]'r.isLt).getMsbD c

/-- The display shadow replaced. -/
def State.setFb (s : State) (fb : Framebuffer) : State := { s with fb := fb }

end Sys2Proof.Machine
end

