-- ==== Sys2Proof/Machine/Boot.lean ====
section
/-! DEFINITION. Initialisation (rules R62, R280 to R284): the engine's state from a program image and a mode
selector. -/

namespace Sys2Proof.Machine

/-- Rule R281: 0 = CHIP8, 1 = SCHIP, 2 = XOCHIP. -/
def modeOfSelector : Nat → Option Mode
  | 0 => some .chip8
  | 1 => some .schip
  | 2 => some .xochip
  | _ => none

/-- Rule R280, "zeroes memory": every cell 0. The cells outside the font region read 0 when not listed. -/
def Memory.zeroed : Memory := Memory.writeBytes [] fontBase (List.replicate 80 0)

/-- Rule R280: zero memory, then the font, then the image at 0x200. -/
def bootMemory (font : Vector Byte 80) (image : List Byte) : Memory :=
  (Memory.zeroed.writeBytes fontBase font.toList).writeBytes 0x200 image

/-- Rules R280, R281: `initialize(image, sel)` for parameters `p` and a font: the first state, or the error on the
`init_error` port. Every other element has its value of rule R40. -/
def boot (p : Params) (font : Vector Byte 80) (image : List Byte) (sel : Nat) : Except ErrorCode State :=
  match modeOfSelector sel with
  | none => .error .modeError
  | some m =>
    if image.length + 0x200 > 4096 then .error .loadError
    else .ok { State.reset with mem := bootMemory font image, mode := m, params := p }

end Sys2Proof.Machine
end

