-- ==== Sys2Proof/Machine/Operands.lean ====
section
/-! DEFINITION. The operand forms: immediates, the quirk of the mode, the shift source, the key test, glyph addresses,
decimal digits, register ranges (rules R9, R64, R83, R202, R219 to R223). -/

namespace Sys2Proof.Machine

/-- Rule R83: `zext_16(nnn)`. -/
def addrOfImm (nnn : Addr12) : Word := nnn.zeroExtend 16

/-- Rules R9, R29: `QUIRKS(MODE)`. -/
def State.quirks (s : State) : Quirks :=
  match s.mode with
  | .chip8 => s.params.quirks.chip8
  | .schip => s.params.quirks.schip
  | .xochip => s.params.quirks.xochip

/-- Rules R157, R159: the source of a shift. -/
def State.shiftSource (s : State) (x y : Nibble) : Byte :=
  match s.quirks.shiftSrc with
  | .vy => s.getV y
  | .vx => s.getV x

/-- Rule R202: `held(v)` on this step's sample, with the sample taken; `KeyIndexRange` above 15 under the policy
`Fault`. Under `NotHeld` the sample is taken and the key counts as not held. -/
def State.keyTest (s : State) (v : Byte) : Except ErrorCode (Bool × State) :=
  if v.toNat ≤ 15 then .ok (keyHeld s.keys v.toNat, s.keysTaken)
  else
    match s.params.keyIndexPolicy with
    | .fault => .error .keyIndexRange
    | .notHeld => .ok (false, s.keysTaken)

/-- Rule R64: `font_glyph_address(d)`, written without a bound for the policy `Unmasked` of rule R219. -/
def glyphAddress (d : Nat) : Word := BitVec.ofNat 16 (fontBase + 5 * d)

/-- Rule R219: the glyph address of a register value. -/
def State.glyphOf (s : State) (v : Byte) : Except ErrorCode Word :=
  if v.toNat ≤ 15 then .ok (glyphAddress v.toNat)
  else
    match s.params.glyphDigitPolicy with
    | .fault => .error .glyphDigitRange
    | .maskLowNibble => .ok (glyphAddress (v &&& 0x0F#8).toNat)
    | .unmasked => .ok (glyphAddress v.toNat)

/-- Rule R220: hundreds, tens and ones. -/
def decimalDigits (v : Byte) : List Byte :=
  [BitVec.ofNat 8 (v.toNat / 100), BitVec.ofNat 8 (v.toNat / 10 % 10), BitVec.ofNat 8 (v.toNat % 10)]

/-- Rule R222: the values of V0 to V(n-1), in order. -/
def State.firstRegs (s : State) (n : Nat) : List Byte := s.v.toList.take n

/-- Rule R223: V(k), V(k+1), … take the bytes in order. -/
def fillRegs (v : Vector Byte 16) (k : Nat) : List Byte → Vector Byte 16
  | [] => v
  | b :: bs => fillRegs (v.setIfInBounds k b) (k + 1) bs

/-- Rule R221: the memory-increment quirk. -/
def State.applyMemInc (s : State) (x : Nibble) : State :=
  match s.quirks.memInc with
  | .xPlus1 => s.setI (BitVec.ofNat 16 (s.idx.toNat + x.toNat + 1))
  | .unchanged => s
  | .x => s.setI (BitVec.ofNat 16 (s.idx.toNat + x.toNat))

end Sys2Proof.Machine
end

