-- ==== Sys2Proof/Machine/Flags.lean ====
section
/-! DEFINITION. Results and flags of the arithmetic: computed on integers, narrowed at the end (rules R12, R150, R160,
R218). -/

namespace Sys2Proof.Machine

/-- A flag as the byte VF holds: 1 or 0. -/
def flagByte (b : Bool) : Byte := if b then 1 else 0

/-- Rule R150: `write_rf(r, f)`, in the order of `VF_ORDER`. -/
def State.writeRF (s : State) (x : Nibble) (r f : Byte) : State :=
  match s.params.vfOrder with
  | .flagLast => (s.setV x r).setV vfIndex f
  | .resultLast => (s.setV vfIndex f).setV x r

/-- Rules R152 to R154: the result of a logical operation, with VF reset where the mode's quirk says so. -/
def State.writeLogic (s : State) (x : Nibble) (r : Byte) : State :=
  if s.quirks.logicVfReset then s.writeRF x r 0 else s.setV x r

/-- Rules R155, R160: `(a + b) mod 256`. -/
def addResult (a b : Byte) : Byte := BitVec.ofNat 8 (a.toNat + b.toNat)

/-- Rules R155, R160: the carry, `a + b > 255`. -/
def addCarry (a b : Byte) : Bool := a.toNat + b.toNat > 255

/-- Rules R156, R158, R160: `(a - b) mod 256`. -/
def subResult (a b : Byte) : Byte := BitVec.ofInt 8 ((a.toNat : Int) - (b.toNat : Int))

/-- Rules R156, R158, R160: not-borrow, `a ≥ b`. -/
def notBorrow (a b : Byte) : Bool := a.toNat ≥ b.toNat

/-- Rule R157: `src >> 1`. -/
def shrResult (src : Byte) : Byte := src >>> 1

/-- Rule R157: the bit shifted out, `src & 1`. -/
def shrOut (src : Byte) : Byte := src &&& 1

/-- Rule R159: `(src << 1) mod 256`. -/
def shlResult (src : Byte) : Byte := src <<< 1

/-- Rule R159: the bit shifted out, `src >> 7`. -/
def shlOut (src : Byte) : Byte := src >>> 7

/-- Rule R218: `I + V[x]` as an integer. -/
def indexSum (i : Word) (b : Byte) : Nat := i.toNat + b.toNat

/-- Rule R218: VF after FX1E, given the integer sum. -/
def State.writeIndexFlag (s : State) (t : Nat) : State :=
  if t > 0xFFF then s.setV vfIndex 1
  else
    match s.params.fx1eNoOverflow with
    | .keep => s
    | .clear => s.setV vfIndex 0

end Sys2Proof.Machine
end

