-- ==== Sys2Proof/Machine/Alu.lean ====
section
/-! DEFINITION. Family 0x8: the register-to-register ALU (rules R150 to R161). Operands are read before any write. -/

namespace Sys2Proof.Machine

/-- Rule R151: 8XY0. -/
def execLdReg (x y : Nibble) (s : State) : Result := .next (s.setV x (s.getV y))

/-- Rule R152: 8XY1. -/
def execOrReg (x y : Nibble) (s : State) : Result := .next (s.writeLogic x (s.getV x ||| s.getV y))

/-- Rule R153: 8XY2. -/
def execAndReg (x y : Nibble) (s : State) : Result := .next (s.writeLogic x (s.getV x &&& s.getV y))

/-- Rule R154: 8XY3. -/
def execXorReg (x y : Nibble) (s : State) : Result := .next (s.writeLogic x (s.getV x ^^^ s.getV y))

/-- Rule R155: 8XY4. -/
def execAddReg (x y : Nibble) (s : State) : Result :=
  .next (s.writeRF x (addResult (s.getV x) (s.getV y)) (flagByte (addCarry (s.getV x) (s.getV y))))

/-- Rule R156: 8XY5. -/
def execSubReg (x y : Nibble) (s : State) : Result :=
  .next (s.writeRF x (subResult (s.getV x) (s.getV y)) (flagByte (notBorrow (s.getV x) (s.getV y))))

/-- Rule R157: 8XY6. -/
def execShrReg (x y : Nibble) (s : State) : Result :=
  .next (s.writeRF x (shrResult (s.shiftSource x y)) (shrOut (s.shiftSource x y)))

/-- Rule R158: 8XY7. -/
def execSubnReg (x y : Nibble) (s : State) : Result :=
  .next (s.writeRF x (subResult (s.getV y) (s.getV x)) (flagByte (notBorrow (s.getV y) (s.getV x))))

/-- Rule R159: 8XYE. -/
def execShlReg (x y : Nibble) (s : State) : Result :=
  .next (s.writeRF x (shlResult (s.shiftSource x y)) (shlOut (s.shiftSource x y)))

end Sys2Proof.Machine
end

