-- ==== Sys2Proof/Machine/Display.lean ====
section
/-! DEFINITION. 00E0 and family 0xD: the display shadow (rules R120, R190 to R195). -/

namespace Sys2Proof.Machine

/-- Rule R120: 00E0. -/
def execCls (s : State) : Result := .next ((s.setFb Framebuffer.blank).emit .dispClear)

/-- Rules R191, R193: a sprite byte as a display row from column `x0` on: bit 7 leftmost, columns past 63 dropped. -/
def spriteRow (x0 : Nat) (b : Byte) : BitVec 64 := (b.zeroExtend 64 <<< 56) >>> x0

/-- Rule R190: XOR the rows of a sprite into the shadow from row `y` on, dropping rows past 31 (rule R193); the flag says
whether any pixel went from set to unset. -/
def drawRows (x0 y : Nat) (fb : Framebuffer) (coll : Bool) : List Byte → Framebuffer × Bool
  | [] => (fb, coll)
  | b :: bs =>
    if h : y < 32 then
      drawRows x0 (y + 1) (fb.set y (fb[y] ^^^ spriteRow x0 b) h)
        (coll || (fb[y] &&& spriteRow x0 b) != 0) bs
    else (fb, coll)

/-- Rule R195: the set of cells a draw toggles, as a shadow: the sprite drawn on a clear display. -/
def spriteMask (x0 y0 : Nat) (bytes : List Byte) : Framebuffer :=
  (drawRows x0 y0 Framebuffer.blank false bytes).1

/-- Rule R190: the draw itself, once the sprite's bytes are read. -/
def State.draw (s : State) (x0 y0 : Nat) (bytes : List Byte) : State :=
  let d := drawRows x0 y0 s.fb false bytes
  ((s.setFb d.1).setV vfIndex (flagByte d.2)).emit (.dispDraw (spriteMask x0 y0 bytes))

/-- Rule R190: DXYN. Rule R194: with n = 0 nothing is read, checked or drawn. -/
def execDrw (x y n : Nibble) (s : State) : Result :=
  match s.loadAtI n.toNat with
  | .ok bytes => .next (s.draw ((s.getV x).toNat % 64) ((s.getV y).toNat % 32) bytes)
  | .error e => s.raise e (.drw x y n)

end Sys2Proof.Machine
end

