-- ==== Sys2Proof/Machine/Flow.lean ====
section
/-! DEFINITION. Families 0x0 to 0x5, 0x9 and 0xB: subroutines, jumps and skips (rules R121 to R128, R181). -/

namespace Sys2Proof.Machine

/-- A skip under a condition (rule R24). -/
def State.skipIf (s : State) (c : Bool) : State := if c then s.skip else s

/-- Rule R121: 00EE. The popped address is not checked here (decision D30). -/
def execRet (s : State) : Result :=
  match s.pop with
  | .ok (a, t) => .next (t.setPc a)
  | .error e => s.raise e .ret

/-- Rule R123: 1NNN. -/
def execJp (nnn : Addr12) (s : State) : Result := .next (s.setPc (addrOfImm nnn))

/-- Rule R124: 2NNN. The pushed value is `PC`, the address of the instruction after the call. -/
def execCall (nnn : Addr12) (s : State) : Result :=
  match s.push s.pc with
  | .ok t => .next (t.setPc (addrOfImm nnn))
  | .error e => s.raise e (.call nnn)

/-- Rule R125: 3XNN. -/
def execSeImm (x : Nibble) (nn : Byte) (s : State) : Result := .next (s.skipIf (s.getV x == nn))

/-- Rule R126: 4XNN. -/
def execSneImm (x : Nibble) (nn : Byte) (s : State) : Result := .next (s.skipIf (s.getV x != nn))

/-- Rules R88, R127: 5XYN; `n` is ignored. -/
def execSeReg (x y : Nibble) (s : State) : Result := .next (s.skipIf (s.getV x == s.getV y))

/-- Rules R88, R128: 9XYN; `n` is ignored. -/
def execSneReg (x y : Nibble) (s : State) : Result := .next (s.skipIf (s.getV x != s.getV y))

/-- Rule R181: BNNN; always V0, in every mode. -/
def execJpV0 (nnn : Addr12) (s : State) : Result :=
  .next (s.setPc (addrOfImm nnn + (s.getV 0#4).zeroExtend 16))

end Sys2Proof.Machine
end

