-- ==== Sys2Proof/Machine/Index.lean ====
section
/-! DEFINITION. FX1E, FX29, FX33, FX55 and FX65: the index register and the memory it addresses (rules R218 to R223). -/

namespace Sys2Proof.Machine

/-- Rule R218: FX1E. -/
def execAddI (x : Nibble) (s : State) : Result :=
  .next ((s.setI (BitVec.ofNat 16 (indexSum s.idx (s.getV x)))).writeIndexFlag (indexSum s.idx (s.getV x)))

/-- Rule R219: FX29. -/
def execLdF (x : Nibble) (s : State) : Result :=
  match s.glyphOf (s.getV x) with
  | .ok a => .next (s.setI a)
  | .error e => s.raise e (.ldF x)

/-- Rule R220: FX33. -/
def execLdB (x : Nibble) (s : State) : Result :=
  s.orRaise (.ldB x) (s.storeAtI (decimalDigits (s.getV x)))

/-- Rule R222: FX55. -/
def execStoreRegs (x : Nibble) (s : State) : Result :=
  match s.storeAtI (s.firstRegs (x.toNat + 1)) with
  | .ok t => .next (t.applyMemInc x)
  | .error e => s.raise e (.storeRegs x)

/-- Rule R223: FX65. -/
def execLoadRegs (x : Nibble) (s : State) : Result :=
  match s.loadAtI (x.toNat + 1) with
  | .ok bytes => .next ({ s with v := fillRegs s.v 0 bytes }.applyMemInc x)
  | .error e => s.raise e (.loadRegs x)

end Sys2Proof.Machine
end

