-- ==== Sys2Proof/Machine/Keys.lean ====
section
/-! DEFINITION. Family 0xE and FX0A: the key port and the key-wait latch (rules R200 to R202, R212 to R215). -/

namespace Sys2Proof.Machine

/-- Rule R200: EX9E. -/
def execSkp (x : Nibble) (s : State) : Result :=
  match s.keyTest (s.getV x) with
  | .ok (held, t) => .next (t.skipIf held)
  | .error e => s.raise e (.skp x)

/-- Rule R201: EXA1. -/
def execSknp (x : Nibble) (s : State) : Result :=
  match s.keyTest (s.getV x) with
  | .ok (held, t) => .next (t.skipIf (!held))
  | .error e => s.raise e (.sknp x)

/-- Rules R212, R215: the three cases of the key wait, on the sample `Keys` of this step. -/
def State.keyWait (s : State) (x : Nibble) : State :=
  match s.latch with
  | none =>
    if s.keys = 0 then s.keysTaken.rewind
    else (s.keysTaken.choiceTaken.setLatch (some (chooseKey s.keysTaken.choice s.keys))).rewind
  | some k =>
    if keyHeld s.keys k.toNat then s.keysTaken.rewind
    else (s.keysTaken.setV x (k.zeroExtend 8)).setLatch none

/-- Rule R215: FX0A; it completes in every case, a rewind being a completed cycle (rule R106). -/
def execLdVxK (x : Nibble) (s : State) : Result := .next (s.keyWait x)

end Sys2Proof.Machine
end

