-- ==== Sys2Proof/Machine/Load.lean ====
section
/-! DEFINITION. Families 0x6, 0x7, 0xA and 0xC: load and add immediate, index load, random (rules R140, R141, R180,
R182). -/

namespace Sys2Proof.Machine

/-- Rule R140: 6XNN. -/
def execLdImm (x : Nibble) (nn : Byte) (s : State) : Result := .next (s.setV x nn)

/-- Rule R141: 7XNN; no flag. -/
def execAddImm (x : Nibble) (nn : Byte) (s : State) : Result := .next (s.setV x (addResult (s.getV x) nn))

/-- Rule R180: ANNN. -/
def execLdI (nnn : Addr12) (s : State) : Result := .next (s.setI (addrOfImm nnn))

/-- Rule R182: CXNN; one fresh `Rand` (rule R35). -/
def execRnd (x : Nibble) (nn : Byte) (s : State) : Result := .next (s.randTaken.setV x (nn &&& s.rand))

end Sys2Proof.Machine
end

