-- ==== Sys2Proof/Machine/Timers.lean ====
section
/-! DEFINITION. FX07, FX15 and FX18: the timers as programs reach them (rules R211, R216, R217, R262). -/

namespace Sys2Proof.Machine

/-- Rule R211: FX07. -/
def execLdVxDt (x : Nibble) (s : State) : Result := .next (s.setV x s.dt)

/-- `DT <- b` (rule R27). -/
def State.setDt (s : State) (b : Byte) : State := { s with dt := b }

/-- `ST <- b` (rule R28). -/
def State.setSt (s : State) (b : Byte) : State := { s with st := b }

/-- Rule R216: FX15. -/
def execLdDtVx (x : Nibble) (s : State) : Result := .next (s.setDt (s.getV x))

/-- Rule R217: FX18; BEEP does not change until the next tick. -/
def execLdStVx (x : Nibble) (s : State) : Result := .next (s.setSt (s.getV x))

end Sys2Proof.Machine
end

