-- ==== Sys2Proof/Machine/Fetch.lean ====
section
/-! DEFINITION. Fetch and advance (rules R101, R102), the errors found before an instruction executes, and the placing
of a word where the next fetch reads it. -/

namespace Sys2Proof.Machine

/-- Rule R101: the word at `PC`, none when `PC > 4094`. -/
def State.fetchWord (s : State) : Option Word :=
  if s.pc.toNat > 4094 then none else some (s.mem.readWord s.pc.toNat)

/-- Rule R102: `PC <- a + 2` after a successful fetch. -/
def State.advance (s : State) : State := s.setPc (s.pc + 2)

/-- Rule R101: the fetch error, with no word recorded. -/
def State.fetchError (s : State) : State := s.haltAt .addressError none s.pc

/-- Rules R96, R122: a word that names no instruction, in the execute phase. -/
def State.unsupported (s : State) (w : Word) : State := s.raiseWord .unsupportedOpcode w

/-- The bytes of a word at `PC`, as a loader would place them. -/
def State.placeAtPc (s : State) (w : Word) : State :=
  { s with mem := s.mem.writeBytes s.pc.toNat (bytesOfWord w) }

end Sys2Proof.Machine
end

