-- ==== Sys2Proof/Machine/Frame.lean ====
section
/-! DEFINITION. The timer controller: the frame bookkeeping and the tick (rules R106, R108, R260, R261). -/

namespace Sys2Proof.Machine

/-- Rule R260: a timer at 0 stays at 0, any other goes down by 1. -/
def countDown (b : Byte) : Byte := if b = 0 then 0 else b - 1

/-- Rule R261: the beep level, by `BEEP_SAMPLE`. -/
def State.beepLevel (s : State) : Bool :=
  match s.params.beepSample with
  | .postDecrement => countDown s.st != 0
  | .preDecrement => s.st != 0

/-- Rule R261: the call on the audio port. -/
def beepEvent (on : Bool) : PortEvent := if on then .startBeep else .stopBeep

/-- Rules R260, R261: the tick. -/
def State.tick (s : State) : State :=
  { s with dt := countDown s.dt, st := countDown s.st, beep := s.beepLevel,
           portLog := beepEvent s.beepLevel :: s.portLog }

/-- Rule R108: this completed instruction is the frame's last, `CYC + 1 = IPF`. -/
def State.endsFrame (s : State) : Bool := s.cyc + 1 == s.params.ipf

/-- Rule R108: after a completed instruction, `CYC <- CYC + 1`; at `IPF`, one tick and `CYC <- 0`. Written field by
field, so that what the tick does not touch does not wait for the value of `IPF`; `Laws.completeCycle_eq` gives the
rule's own form. -/
def State.completeCycle (s : State) : State :=
  { s with
    cyc     := if s.endsFrame then 0 else s.cyc + 1
    dt      := if s.endsFrame then s.tick.dt else s.dt
    st      := if s.endsFrame then s.tick.st else s.st
    beep    := if s.endsFrame then s.tick.beep else s.beep
    portLog := if s.endsFrame then s.tick.portLog else s.portLog }

/-- Rules R105, R106: a completed instruction ends its cycle by the frame bookkeeping; a failing one does not. -/
def State.endStep (t : State) : State :=
  match t.halt with
  | .running => t.completeCycle
  | .halted _ _ _ => t

/-- The end of a step, around the outcome of the instruction. -/
def finishStep : Result → Result
  | .next t => .next t.endStep
  | .fault r => .fault r
  | .refused r => .refused r

end Sys2Proof.Machine
end

