-- ==== Sys2Proof/Machine/Step.lean ====
section
/-! DEFINITION. Rule R107: one step of the engine. -/

namespace Sys2Proof.Machine

/-- Rules R100 to R108: fetch, advance, decode, execute, frame bookkeeping. A fatal error is a next state in which the
engine is halted (rule R243); a halted engine has no step (rule R100). -/
def step (s : State) : Host.Outcome State Fault Refusal :=
  match s.halt with
  | .halted _ _ _ => .fault .engineHalted
  | .running =>
    match s.fetchWord with
    | none => .next s.fetchError
    | some w =>
      match decodeWord w with
      | .error _ => .next (s.advance.unsupported w)
      | .ok i => finishStep (exec i s.advance)

/-- `s` with a table word stored where `step` fetches its next instruction: at `PC`, high byte first. Nothing else
changes. It stands for the loading of a program from outside (log entry 6). -/
def State.withFetchWord (s : State) (nbits w : Nat) : State := s.placeAtPc (tableWord nbits w)

end Sys2Proof.Machine
end

