-- ==== Sys2Proof/Safety.lean ====
section
/-! DEFINITION. What claims about runs speak of: the invariant of the engine, reachability, and a safe run (rule
R111). -/

namespace Sys2Proof.Machine

/-- The invariant of the engine: the memory list has its canonical form; `CYC` lies in 0..IPF−1 (rule R32), which also
says `IPF ≥ 1` (rule R6); `PC` never exceeds 0x10FE (rule R23); every return address held is at most 0x1000 (rule
R121). -/
structure State.Inv (s : State) : Prop where
  memWf     : s.mem.wf = true
  cycBound  : s.cyc < s.params.ipf
  pcBound   : s.pc.toNat ≤ 0x10FE
  stackAddr : ∀ (k : Nat) (h : k < 16), k < s.sp.val → s.stack[k].toNat ≤ 0x1000

/-- `t` is reached from `s` by steps. -/
inductive Reaches : State → State → Prop where
  | refl (s : State) : Reaches s s
  | tail {s t u : State} (h : Reaches s t) (hs : step t = .next u) : Reaches s u

/-- Rule R111: "no run reaches `Halted`", from this state. -/
def NeverHalts (s : State) : Prop := ∀ t, Reaches s t → t.halt = .running

end Sys2Proof.Machine
end

