-- ==== Sys2Proof/Certificates/Slice0/Obligations.lean ====
section
/-! DEFINITION. The statements for the provers. In a statement about `exec`, the state is that of the execute phase: `PC`
is the address `a` of the instruction plus 2 (rules R14, R102), so `s.pc - 2` is `a`. A frame is written as an equality: the
next state is the given one with only the fields named replaced; every other field, all of memory among them, is the
same. `State.keys`, `State.rand` and `State.choice` are the step's free inputs (log entry 2); no statement rests on the
value that `State.reset` gives the fields they come from. `portLog` is the model's own record of the port events, the newest
first (log entry 9). A docstring that names a decision D<n> of spec/92_eei_decisions.md, general knowledge or a log entry says
that the clause rests on that choice and not on the source's words. -/

open Sys2Proof Sys2Proof.Machine

namespace Sys2Proof.Claims

/-- The word with the four hexadecimal digits `a b c d` (rule R10). -/
def hexWord (a b c d : Nibble) : Word := (a ++ b : BitVec 8) ++ (c ++ d : BitVec 8)

/-- The word with the digits `a b` and the low byte `nn`. -/
def hexByteWord (a b : Nibble) (nn : Byte) : Word := (a ++ b : BitVec 8) ++ nn

/-- The word with the digit `a` and the low twelve bits `nnn`. -/
def hexAddrWord (a : Nibble) (nnn : Addr12) : Word := a ++ nnn

/-- Rule R243, in the execute phase: the state before the step, with `HALT <- Halted(code, w, a)`. That nothing of the failing
step stays is the spec's decision D11; so it is in every statement that uses this. -/
def raised (s : State) (code : ErrorCode) (w : Word) : State :=
  { s with pc := s.pc - 2, halt := .halted code (some w) (s.pc - 2) }

/-- `t` is `s` with `V[x]` holding `b`. -/
def writesReg (s t : State) (x : Nibble) (b : Byte) : Prop :=
  (∀ k, t.getV k = if k = x then b else s.getV k) ∧ t = { s with v := t.v }

/-- Rule R150: `t` is `s` after `write_rf(r, f)`. For `x ≠ 0xF` both orders agree; for `x = 0xF` VF ends as the later
write (decision D15). -/
def writesResultAndFlag (s t : State) (x : Nibble) (r f : Nat) : Prop :=
  (∀ k, (t.getV k).toNat =
    if k = 0xF#4 then (if x = 0xF#4 ∧ s.params.vfOrder = .resultLast then r else f)
    else if k = x then r else (s.getV k).toNat) ∧
  t = { s with v := t.v }

/-- Rules R190, R193: the draw of `n` rows from `I` at (`V[x] mod 64`, `V[y] mod 32`) toggles the cell at row `r`,
column `c`. -/
def toggles (s : State) (x y n : Nibble) (r c : Nat) : Bool :=
  let x0 := (s.getV x).toNat % 64
  let y0 := (s.getV y).toNat % 32
  decide (y0 ≤ r ∧ r < y0 + n.toNat ∧ x0 ≤ c ∧ c < x0 + 8) &&
    (s.mem.read (s.idx.toNat + (r - y0))).getLsbD (7 - (c - x0))

/-- `FB[r][c] <- FB[r][c] ^ 1`. -/
def flipCell (fb : Framebuffer) (r : Fin 32) (c : Nat) : Framebuffer :=
  fb.set r.val (fb[r.val] ^^^ (1#64 <<< (63 - c)))

/-- Rule R190's loop body, for the sprite byte `b` in row `r`, column `c`. -/
def drawCell (x0 y0 : Nat) (b : Byte) (r : Nat) (d : Framebuffer × Bool) (c : Nat) : Framebuffer × Bool :=
  if h : b.getLsbD (7 - c) = true ∧ x0 + c < 64 ∧ y0 + r < 32 then
    (flipCell d.1 ⟨y0 + r, h.2.2⟩ (x0 + c), d.2 || d.1.pixel ⟨y0 + r, h.2.2⟩ (x0 + c))
  else d

/-- Rule R190's two loops, cell by cell as its pseudocode writes them. -/
def drawLoop (s : State) (x0 y0 n : Nat) : Framebuffer × Bool :=
  (List.range n).foldl (fun d r =>
    (List.range 8).foldl (drawCell x0 y0 (s.mem.read (s.idx.toNat + r)) r) d) (s.fb, false)

/-- Rule R68 for `m` bytes: the access is legal. -/
def inRange (s : State) (m : Nat) : Prop := m = 0 ∨ s.idx.toNat + m - 1 ≤ 0xFFF

/-- Rule R69 for `m` bytes: no byte is in the font region, or the policy is `Write`. -/
def fontAllows (s : State) (m : Nat) : Prop :=
  s.params.fontWritePolicy = .write ∨ ∀ k < m, s.idx.toNat + k < 0x050 ∨ 0x09F < s.idx.toNat + k

/-- Rule R221: `I` after FX55 and FX65. -/
def indexAfter (s : State) (x : Nibble) : Word :=
  match s.quirks.memInc with
  | .xPlus1 => BitVec.ofNat 16 (s.idx.toNat + x.toNat + 1)
  | .unchanged => s.idx
  | .x => BitVec.ofNat 16 (s.idx.toNat + x.toNat)

/-- Rule R96: the words that name no instruction. -/
def unsupportedBy96 (w : Word) : Prop :=
  let f := decodeFields w
  (f.family = 0x0#4 ∧ w ≠ 0x00E0#16 ∧ w ≠ 0x00EE#16) ∨
  (f.family = 0x8#4 ∧ f.n ∈ [0x8#4, 0x9#4, 0xA#4, 0xB#4, 0xC#4, 0xD#4, 0xF#4]) ∨
  (f.family = 0xE#4 ∧ f.nn ∉ [0x9E#8, 0xA1#8]) ∨
  (f.family = 0xF#4 ∧ f.nn ∉ [0x07#8, 0x0A#8, 0x15#8, 0x18#8, 0x1E#8, 0x29#8, 0x33#8, 0x55#8, 0x65#8])

/-- Rule R241's list: the instructions that cannot raise an error. -/
def cannotRaise : Instr → Bool
  | .cls | .jp _ | .seImm _ _ | .sneImm _ _ | .seReg _ _ _ | .ldImm _ _ | .addImm _ _ | .ldReg _ _ | .orReg _ _
  | .andReg _ _ | .xorReg _ _ | .addReg _ _ | .subReg _ _ | .shrReg _ _ | .subnReg _ _ | .shlReg _ _
  | .sneReg _ _ _ | .ldI _ | .jpV0 _ | .rnd _ _ | .ldVxDt _ | .ldVxK _ | .ldDtVx _ | .ldStVx _ | .addI _ => true
  | .ret | .call _ | .drw _ _ _ | .skp _ | .sknp _ | .ldF _ | .ldB _ | .storeRegs _ | .loadRegs _ => false

/-- Rule R29: the instructions that consult the mode. -/
def consultsMode : Instr → Bool
  | .orReg _ _ | .andReg _ _ | .xorReg _ _ | .shrReg _ _ | .shlReg _ _ | .storeRegs _ | .loadRegs _ => true
  | .cls | .ret | .jp _ | .call _ | .seImm _ _ | .sneImm _ _ | .seReg _ _ _ | .ldImm _ _ | .addImm _ _ | .ldReg _ _
  | .addReg _ _ | .subReg _ _ | .subnReg _ _ | .sneReg _ _ _ | .ldI _ | .jpV0 _ | .rnd _ _ | .drw _ _ _ | .skp _
  | .sknp _ | .ldVxDt _ | .ldVxK _ | .ldDtVx _ | .ldStVx _ | .addI _ | .ldF _ | .ldB _ => false

/-- One sample of the key port is taken (rule R34, log entry 2): the next sample is another one. -/
def keysDrawn (n : Inputs) : Inputs := { n with keySamples := n.keySamples.tail, draws := n.draws + 1 }

/-- One random byte is taken (rule R35, log entry 2). -/
def randDrawn (n : Inputs) : Inputs := { n with randBytes := n.randBytes.tail, draws := n.draws + 1 }

/-- The free input of one `choose` is taken (rule R213, log entry 2). -/
def choiceDrawn (n : Inputs) : Inputs := { n with choices := n.choices.tail, draws := n.draws + 1 }

/-- The step's key sample is the one named next, and where none is named it is the free value of this draw. -/
def sampledKeys (s : State) : Prop :=
  (∀ k rest, s.inputs.keySamples = k :: rest → s.keys = k) ∧
  (s.inputs.keySamples = [] → s.keys = Config.freeKeys s.inputs.draws)

/-- The step's random byte is the one named next, and where none is named it is the free value of this draw. -/
def sampledRand (s : State) : Prop :=
  (∀ b rest, s.inputs.randBytes = b :: rest → s.rand = b) ∧
  (s.inputs.randBytes = [] → s.rand = Config.freeRand s.inputs.draws)

/-- The inputs after an instruction that completes: EX9E, EXA1 and FX0A take one key sample (rule R34), CXNN one random
byte (rule R35), FX0A one choice where it latches (rule R215), and no other instruction takes anything. -/
def inputsAfter (s : State) : Instr → Inputs
  | .skp _ | .sknp _ => keysDrawn s.inputs
  | .rnd _ _ => randDrawn s.inputs
  | .ldVxK _ => if s.latch = none ∧ s.keys ≠ 0 then choiceDrawn (keysDrawn s.inputs) else keysDrawn s.inputs
  | .cls | .ret | .jp _ | .call _ | .seImm _ _ | .sneImm _ _ | .seReg _ _ _ | .ldImm _ _ | .addImm _ _ | .ldReg _ _
  | .orReg _ _ | .andReg _ _ | .xorReg _ _ | .addReg _ _ | .subReg _ _ | .shrReg _ _ | .subnReg _ _ | .shlReg _ _
  | .sneReg _ _ _ | .ldI _ | .jpV0 _ | .drw _ _ _ | .ldVxDt _ | .ldDtVx _ | .ldStVx _ | .addI _ | .ldF _ | .ldB _
  | .storeRegs _ | .loadRegs _ => s.inputs

/-- A change of the state under an outcome. -/
def mapNext (f : State → State) : Result → Result
  | .next t => .next (f t)
  | .fault r => .fault r
  | .refused r => .refused r

/-- Rules R22, R24, R42: what a completing instruction may write, besides what its operands name. -/
structure WritesOnlyListed (i : Instr) (s t : State) : Prop where
  mem     : t.mem ≠ s.mem → ∃ x, i = .ldB x ∨ i = .storeRegs x
  idx     : t.idx ≠ s.idx → (∃ a, i = .ldI a) ∨ ∃ x, i = .addI x ∨ i = .ldF x ∨
    ((i = .storeRegs x ∨ i = .loadRegs x) ∧ s.quirks.memInc ≠ .unchanged)
  stack   : (t.stack ≠ s.stack ∨ t.sp ≠ s.sp) → i = .ret ∨ ∃ a, i = .call a
  dt      : t.dt ≠ s.dt → ∃ x, i = .ldDtVx x
  st      : t.st ≠ s.st → ∃ x, i = .ldStVx x
  beep    : t.beep = s.beep
  cyc     : t.cyc = s.cyc
  latch   : t.latch ≠ s.latch → ∃ x, i = .ldVxK x
  fb      : t.fb ≠ s.fb → i = .cls ∨ ∃ x y n, i = .drw x y n
  mode    : t.mode = s.mode
  params  : t.params = s.params
  inputs  : t.inputs ≠ s.inputs → ∃ x, i = .skp x ∨ i = .sknp x ∨ i = .ldVxK x ∨ ∃ nn, i = .rnd x nn
  portLog : t.portLog ≠ s.portLog → i = .cls ∨ ∃ x y n, i = .drw x y n
  pc      : t.pc ≠ s.pc → i = .ret ∨ (∃ a, i = .jp a ∨ i = .call a ∨ i = .jpV0 a) ∨
    ∃ x, (∃ nn, i = .seImm x nn ∨ i = .sneImm x nn) ∨ (∃ y n, i = .seReg x y n ∨ i = .sneReg x y n) ∨
      i = .skp x ∨ i = .sknp x ∨ i = .ldVxK x

/-- Rule R22: the instruction writes VF, as a side effect or as its explicit destination. -/
def mayWriteVf (s : State) : Instr → Prop
  | .addReg _ _ | .subReg _ _ | .shrReg _ _ | .subnReg _ _ | .shlReg _ _ | .drw _ _ _ => True
  | .orReg x _ | .andReg x _ | .xorReg x _ => x = 0xF#4 ∨ s.quirks.logicVfReset = true
  | .addI x => s.idx.toNat + (s.getV x).toNat > 0xFFF ∨ s.params.fx1eNoOverflow = .clear
  | .ldImm x _ | .addImm x _ | .ldReg x _ | .rnd x _ | .ldVxDt x | .ldVxK x | .loadRegs x => x = 0xF#4
  | .cls | .ret | .jp _ | .call _ | .seImm _ _ | .sneImm _ _ | .seReg _ _ _ | .sneReg _ _ _ | .ldI _ | .jpV0 _
  | .skp _ | .sknp _ | .ldDtVx _ | .ldStVx _ | .ldF _ | .ldB _ | .storeRegs _ => False

end Sys2Proof.Claims

open Sys2Proof.Claims

/-! The instructions: result, flags, frame and completion, and where a form raises an error. -/

/-- Rule R120. -/
def Obligations.ClsClearsTheDisplay : Prop :=
  ∀ s : State, encode .cls = 0x00E0 ∧ ∃ t, exec .cls s = .next t ∧
    (∀ r c, c < 64 → t.fb.pixel r c = false) ∧
    t = { s with fb := t.fb, portLog := .dispClear :: s.portLog }

/-- Rule R121. That the popped address is not checked is the spec's decision D30, the precise error its
decision D11. -/
def Obligations.RetPopsOrUnderflows : Prop :=
  ∀ s : State, encode .ret = 0x00EE ∧
    (s.sp.val = 0 → exec .ret s = .next (raised s .stackUnderflow 0x00EE)) ∧
    (∀ h : 0 < s.sp.val, ∃ t, exec .ret s = .next t ∧ t.sp.val = s.sp.val - 1 ∧
      t.pc = s.stack[s.sp.val - 1] ∧ t = { s with sp := t.sp, pc := t.pc })

/-- Rule R123. -/
def Obligations.JpSetsPc : Prop :=
  ∀ (nnn : Addr12) (s : State), encode (.jp nnn) = hexAddrWord 0x1 nnn ∧
    ∃ t, exec (.jp nnn) s = .next t ∧ t.pc.toNat = nnn.toNat ∧ t = { s with pc := t.pc }

/-- Rule R124. That a failing call leaves nothing else changed is the spec's decision D11 (log entries 7, 23). -/
def Obligations.CallPushesOrOverflows : Prop :=
  ∀ (nnn : Addr12) (s : State), encode (.call nnn) = hexAddrWord 0x2 nnn ∧
    (s.sp.val = 16 → exec (.call nnn) s = .next (raised s .stackOverflow (hexAddrWord 0x2 nnn))) ∧
    (∀ h : s.sp.val < 16, ∃ t, exec (.call nnn) s = .next t ∧ t.sp.val = s.sp.val + 1 ∧
      t.stack = s.stack.set s.sp.val s.pc ∧ t.pc.toNat = nnn.toNat ∧
      t = { s with stack := t.stack, sp := t.sp, pc := t.pc })

/-- Rules R125, R126. -/
def Obligations.SkipsCompareVxWithImmediate : Prop :=
  ∀ (x : Nibble) (nn : Byte) (s : State),
    encode (.seImm x nn) = hexByteWord 0x3 x nn ∧ encode (.sneImm x nn) = hexByteWord 0x4 x nn ∧
    (s.getV x = nn → exec (.seImm x nn) s = .next { s with pc := s.pc + 2 } ∧ exec (.sneImm x nn) s = .next s) ∧
    (s.getV x ≠ nn → exec (.seImm x nn) s = .next s ∧ exec (.sneImm x nn) s = .next { s with pc := s.pc + 2 })

/-- Rules R127, R128: for every low nibble `n`. -/
def Obligations.SkipsCompareVxWithVy : Prop :=
  ∀ (x y n : Nibble) (s : State),
    encode (.seReg x y n) = hexWord 0x5 x y n ∧ encode (.sneReg x y n) = hexWord 0x9 x y n ∧
    (s.getV x = s.getV y →
      exec (.seReg x y n) s = .next { s with pc := s.pc + 2 } ∧ exec (.sneReg x y n) s = .next s) ∧
    (s.getV x ≠ s.getV y →
      exec (.seReg x y n) s = .next s ∧ exec (.sneReg x y n) s = .next { s with pc := s.pc + 2 })

/-- Rule R140. -/
def Obligations.LoadImmediateWritesVx : Prop :=
  ∀ (x : Nibble) (nn : Byte) (s : State), encode (.ldImm x nn) = hexByteWord 0x6 x nn ∧
    ∃ t, exec (.ldImm x nn) s = .next t ∧ writesReg s t x nn

/-- Rule R141: VF changes only as the destination. -/
def Obligations.AddImmediateWritesNoFlag : Prop :=
  ∀ (x : Nibble) (nn : Byte) (s : State), encode (.addImm x nn) = hexByteWord 0x7 x nn ∧
    ∃ t, exec (.addImm x nn) s = .next t ∧
      writesReg s t x (BitVec.ofNat 8 (((s.getV x).toNat + nn.toNat) % 256))

/-- Rule R151. -/
def Obligations.LoadRegisterCopiesVy : Prop :=
  ∀ (x y : Nibble) (s : State), encode (.ldReg x y) = hexWord 0x8 x y 0x0 ∧
    ∃ t, exec (.ldReg x y) s = .next t ∧ writesReg s t x (s.getV y)

/-- Rules R152 to R154. The VF effect is the spec's decision D14; it is stated for both values of the quirk. -/
def Obligations.LogicalOperationsFollowTheVfQuirk : Prop :=
  ∀ (x y : Nibble) (s : State),
    (encode (.orReg x y) = hexWord 0x8 x y 0x1 ∧ encode (.andReg x y) = hexWord 0x8 x y 0x2 ∧
      encode (.xorReg x y) = hexWord 0x8 x y 0x3) ∧
    ∃ t u v, exec (.orReg x y) s = .next t ∧ exec (.andReg x y) s = .next u ∧ exec (.xorReg x y) s = .next v ∧
      (s.quirks.logicVfReset = true →
        writesResultAndFlag s t x (s.getV x ||| s.getV y).toNat 0 ∧
        writesResultAndFlag s u x (s.getV x &&& s.getV y).toNat 0 ∧
        writesResultAndFlag s v x (s.getV x ^^^ s.getV y).toNat 0) ∧
      (s.quirks.logicVfReset = false →
        writesReg s t x (s.getV x ||| s.getV y) ∧ writesReg s u x (s.getV x &&& s.getV y) ∧
        writesReg s v x (s.getV x ^^^ s.getV y))

/-- Rule R155. For `x = 0xF` the order of the two writes is the spec's decision D15 (rule R150, log entries 14, 23); it is
stated for both orders. -/
def Obligations.AddSetsVfToCarry : Prop :=
  ∀ (x y : Nibble) (s : State), encode (.addReg x y) = hexWord 0x8 x y 0x4 ∧
    ∃ t, exec (.addReg x y) s = .next t ∧
      writesResultAndFlag s t x (((s.getV x).toNat + (s.getV y).toNat) % 256)
        (if (s.getV x).toNat + (s.getV y).toNat > 255 then 1 else 0)

/-- Rules R156, R158: on a borrow the result wraps via +256. For `x = 0xF` the order of the two writes is the spec's decision
D15 (rule R150, log entries 14, 23); it is stated for both orders. -/
def Obligations.SubtractionsSetVfToNotBorrow : Prop :=
  ∀ (x y : Nibble) (s : State),
    encode (.subReg x y) = hexWord 0x8 x y 0x5 ∧ encode (.subnReg x y) = hexWord 0x8 x y 0x7 ∧
    ∃ t u, exec (.subReg x y) s = .next t ∧ exec (.subnReg x y) s = .next u ∧
      writesResultAndFlag s t x (((s.getV x).toNat + 256 - (s.getV y).toNat) % 256)
        (if (s.getV x).toNat ≥ (s.getV y).toNat then 1 else 0) ∧
      writesResultAndFlag s u x (((s.getV y).toNat + 256 - (s.getV x).toNat) % 256)
        (if (s.getV y).toNat ≥ (s.getV x).toNat then 1 else 0)

/-- Rules R157, R159: for both values of `shift_src` (the quirk is the spec's decision D13). -/
def Obligations.ShiftsTakeTheQuirkSource : Prop :=
  ∀ (x y : Nibble) (s : State),
    encode (.shrReg x y) = hexWord 0x8 x y 0x6 ∧ encode (.shlReg x y) = hexWord 0x8 x y 0xE ∧
    ∀ src : Nat, src = (if s.quirks.shiftSrc = .vy then s.getV y else s.getV x).toNat →
      ∃ t u, exec (.shrReg x y) s = .next t ∧ exec (.shlReg x y) s = .next u ∧
        writesResultAndFlag s t x (src / 2) (src % 2) ∧
        writesResultAndFlag s u x (src * 2 % 256) (src / 128)

/-- Rule R180. -/
def Obligations.LoadIndexWritesI : Prop :=
  ∀ (nnn : Addr12) (s : State), encode (.ldI nnn) = hexAddrWord 0xA nnn ∧
    ∃ t, exec (.ldI nnn) s = .next t ∧ t.idx.toNat = nnn.toNat ∧ t = { s with idx := t.idx }

/-- Rule R181: the register is V0 in every mode, and the sum does not wrap. -/
def Obligations.JumpV0AddsV0 : Prop :=
  ∀ (nnn : Addr12) (s : State), encode (.jpV0 nnn) = hexAddrWord 0xB nnn ∧
    ∃ t, exec (.jpV0 nnn) s = .next t ∧ t.pc.toNat = nnn.toNat + (s.getV 0#4).toNat ∧ t = { s with pc := t.pc }

/-- Rule R182: the step's sample masked. Each execution takes the sample, so that the next is a fresh one; every byte can be
that sample, so nothing constrains it (decision D24; that the environment names samples in `inputs` is log entry 2). -/
def Obligations.RandomIsMaskedAndFree : Prop :=
  ∀ (x : Nibble) (nn : Byte) (s : State), encode (.rnd x nn) = hexByteWord 0xC x nn ∧
    (∃ t, exec (.rnd x nn) s = .next t ∧ (∀ k, t.getV k = if k = x then nn &&& s.rand else s.getV k) ∧
      t = { s with v := t.v, inputs := randDrawn s.inputs }) ∧
    sampledRand s

/-- Rules R190, R193, cell by cell; and the event's mask is the set of toggled cells. The precise error is the spec's decision
D11 (log entry 7), the bit order of a sprite byte is log entry 16, the mask log entry 18. -/
def Obligations.DrawTogglesCellsAndReportsCollision : Prop :=
  ∀ (x y n : Nibble) (s : State), encode (.drw x y n) = hexWord 0xD x y n ∧
    (¬ inRange s n.toNat → exec (.drw x y n) s = .next (raised s .addressError (hexWord 0xD x y n))) ∧
    (inRange s n.toNat → ∃ t mask, exec (.drw x y n) s = .next t ∧
      (∀ (r : Fin 32) c, c < 64 → t.fb.pixel r c = (s.fb.pixel r c ^^ toggles s x y n r.val c)) ∧
      (∀ (r : Fin 32) c, c < 64 → mask.pixel r c = toggles s x y n r.val c) ∧
      ((∃ (r : Fin 32) (c : Nat), c < 64 ∧ toggles s x y n r.val c = true ∧ s.fb.pixel r c = true) →
        t.getV 0xF#4 = 1) ∧
      ((∀ (r : Fin 32) (c : Nat), c < 64 → toggles s x y n r.val c = true → s.fb.pixel r c = false) →
        t.getV 0xF#4 = 0) ∧
      (∀ k, k ≠ 0xF#4 → t.getV k = s.getV k) ∧
      t = { s with v := t.v, fb := t.fb, portLog := .dispDraw mask :: s.portLog })

/-- Rules R200, R201, with the key test of rule R202 for both values of `KEY_INDEX_POLICY` (decision D18). A key skip that
completes takes one key sample (decision D25, log entries 2, 13), one that raises takes none (decision D11, log entry 7). The
sub-opcodes 0x9E and 0xA1 are the spec's general knowledge (rule R90). -/
def Obligations.KeySkipsTestTheSample : Prop :=
  ∀ (x : Nibble) (s : State),
    encode (.skp x) = hexByteWord 0xE x 0x9E ∧ encode (.sknp x) = hexByteWord 0xE x 0xA1 ∧ sampledKeys s ∧
    ((s.getV x).toNat ≤ 15 ∨ s.params.keyIndexPolicy = .notHeld →
      ∃ t u, exec (.skp x) s = .next t ∧ exec (.sknp x) s = .next u ∧
        (if (s.getV x).toNat ≤ 15 ∧ s.keys.getLsbD (s.getV x).toNat = true
          then t.pc = s.pc + 2 ∧ u.pc = s.pc else t.pc = s.pc ∧ u.pc = s.pc + 2) ∧
        t = { s with pc := t.pc, inputs := keysDrawn s.inputs } ∧
        u = { s with pc := u.pc, inputs := keysDrawn s.inputs }) ∧
    ((s.getV x).toNat > 15 → s.params.keyIndexPolicy = .fault →
      exec (.skp x) s = .next (raised s .keyIndexRange (hexByteWord 0xE x 0x9E)) ∧
      exec (.sknp x) s = .next (raised s .keyIndexRange (hexByteWord 0xE x 0xA1)))

/-- Rule R211. -/
def Obligations.LoadDelayTimerReadsDt : Prop :=
  ∀ (x : Nibble) (s : State), encode (.ldVxDt x) = hexByteWord 0xF x 0x07 ∧
    ∃ t, exec (.ldVxDt x) s = .next t ∧ writesReg s t x s.dt

/-- Rules R212, R215: the three cases of the key wait on this step's sample, which each of them takes. The key latched is
`choose` of the sample: the key that the free input proposes where it is held, so any held key (decision D19, log entry 10). -/
def Obligations.KeyWaitLatchesRewindsOrCompletes : Prop :=
  ∀ (x : Nibble) (s : State), encode (.ldVxK x) = hexByteWord 0xF x 0x0A ∧ sampledKeys s ∧
    ∃ t, exec (.ldVxK x) s = .next t ∧
      (s.latch = none → s.keys = 0 → t = { s with pc := s.pc - 2, inputs := keysDrawn s.inputs }) ∧
      (s.latch = none → s.keys ≠ 0 → ∃ k : KeyId, s.keys.getLsbD k.toNat = true ∧
        k = chooseKey s.keysTaken.choice s.keys ∧
        (∀ j rest, s.inputs.choices = j :: rest → s.keys.getLsbD j.toNat = true → k = j) ∧
        t = { s with pc := s.pc - 2, latch := some k, inputs := choiceDrawn (keysDrawn s.inputs) }) ∧
      (∀ k, s.latch = some k → s.keys.getLsbD k.toNat = true →
        t = { s with pc := s.pc - 2, inputs := keysDrawn s.inputs }) ∧
      (∀ k, s.latch = some k → s.keys.getLsbD k.toNat = false →
        (∀ j, (t.getV j).toNat = if j = x then k.toNat else (s.getV j).toNat) ∧
        t = { s with v := t.v, latch := none, inputs := keysDrawn s.inputs })

/-- Rules R216, R217. -/
def Obligations.TimerWritesSetDtAndSt : Prop :=
  ∀ (x : Nibble) (s : State),
    encode (.ldDtVx x) = hexByteWord 0xF x 0x15 ∧ encode (.ldStVx x) = hexByteWord 0xF x 0x18 ∧
    exec (.ldDtVx x) s = .next { s with dt := s.getV x } ∧ exec (.ldStVx x) s = .next { s with st := s.getV x }

/-- Rule R218. The wrap at 16 bits is the spec's decision D7; VF without overflow is stated for both values of the
parameter (decision D16). -/
def Obligations.AddIndexFlagsTwelveBitOverflow : Prop :=
  ∀ (x : Nibble) (s : State), encode (.addI x) = hexByteWord 0xF x 0x1E ∧
    ∃ t, exec (.addI x) s = .next t ∧
      t.idx.toNat = (s.idx.toNat + (s.getV x).toNat) % 65536 ∧
      t.getV 0xF#4 = (if s.idx.toNat + (s.getV x).toNat > 0xFFF then 1
        else if s.params.fx1eNoOverflow = .clear then 0 else s.getV 0xF#4) ∧
      (∀ k, k ≠ 0xF#4 → t.getV k = s.getV k) ∧ t = { s with v := t.v, idx := t.idx }

/-- Rule R219: for all three values of `GLYPH_DIGIT_POLICY` (decision D17); the precise error is decision D11. -/
def Obligations.GlyphAddressOfDigit : Prop :=
  ∀ (x : Nibble) (s : State), encode (.ldF x) = hexByteWord 0xF x 0x29 ∧
    ((s.getV x).toNat > 15 → s.params.glyphDigitPolicy = .fault →
      exec (.ldF x) s = .next (raised s .glyphDigitRange (hexByteWord 0xF x 0x29))) ∧
    ((s.getV x).toNat ≤ 15 ∨ s.params.glyphDigitPolicy ≠ .fault →
      ∃ t, exec (.ldF x) s = .next t ∧
        t.idx.toNat = 0x050 + 5 * (if s.params.glyphDigitPolicy = .unmasked then (s.getV x).toNat
          else (s.getV x).toNat % 16) ∧
        t = { s with idx := t.idx })

/-- Rule R220. The precise errors are the spec's decision D11 (log entry 7), the font policy is decision D23 (log entries 14,
23), stated for both values. -/
def Obligations.DecimalDigitsAreStored : Prop :=
  ∀ (x : Nibble) (s : State), s.mem.wf = true → encode (.ldB x) = hexByteWord 0xF x 0x33 ∧
    (¬ inRange s 3 → exec (.ldB x) s = .next (raised s .addressError (hexByteWord 0xF x 0x33))) ∧
    (inRange s 3 → ¬ fontAllows s 3 →
      exec (.ldB x) s = .next (raised s .fontRegionWrite (hexByteWord 0xF x 0x33))) ∧
    (inRange s 3 → fontAllows s 3 → ∃ t, exec (.ldB x) s = .next t ∧
      (t.mem.read s.idx.toNat).toNat = (s.getV x).toNat / 100 ∧
      (t.mem.read (s.idx.toNat + 1)).toNat = (s.getV x).toNat / 10 % 10 ∧
      (t.mem.read (s.idx.toNat + 2)).toNat = (s.getV x).toNat % 10 ∧
      (∀ a, (a < s.idx.toNat ∨ s.idx.toNat + 2 < a) → t.mem.read a = s.mem.read a) ∧
      t = { s with mem := t.mem })

/-- Rules R221, R222: for every value of `mem_inc` (the quirk is the spec's decision D13); the precise errors are decision
D11, the font policy decision D23, stated for both values. -/
def Obligations.BulkStoreWritesV0ToVx : Prop :=
  ∀ (x : Nibble) (s : State), s.mem.wf = true → encode (.storeRegs x) = hexByteWord 0xF x 0x55 ∧
    (¬ inRange s (x.toNat + 1) →
      exec (.storeRegs x) s = .next (raised s .addressError (hexByteWord 0xF x 0x55))) ∧
    (inRange s (x.toNat + 1) → ¬ fontAllows s (x.toNat + 1) →
      exec (.storeRegs x) s = .next (raised s .fontRegionWrite (hexByteWord 0xF x 0x55))) ∧
    (inRange s (x.toNat + 1) → fontAllows s (x.toNat + 1) → ∃ t, exec (.storeRegs x) s = .next t ∧
      (∀ k : Nibble, k.toNat ≤ x.toNat → t.mem.read (s.idx.toNat + k.toNat) = s.getV k) ∧
      (∀ a, (a < s.idx.toNat ∨ s.idx.toNat + x.toNat < a) → t.mem.read a = s.mem.read a) ∧
      t = { s with mem := t.mem, idx := indexAfter s x })

/-- Rules R221, R223: for every value of `mem_inc` (the quirk is the spec's decision D13); the precise error is decision
D11. -/
def Obligations.BulkLoadFillsV0ToVx : Prop :=
  ∀ (x : Nibble) (s : State), encode (.loadRegs x) = hexByteWord 0xF x 0x65 ∧
    (¬ inRange s (x.toNat + 1) →
      exec (.loadRegs x) s = .next (raised s .addressError (hexByteWord 0xF x 0x65))) ∧
    (inRange s (x.toNat + 1) → ∃ t, exec (.loadRegs x) s = .next t ∧
      (∀ k : Nibble, t.getV k =
        if k.toNat ≤ x.toNat then s.mem.read (s.idx.toNat + k.toNat) else s.getV k) ∧
      t = { s with v := t.v, idx := indexAfter s x })

/-! The shared state: registers, stack, memory, free inputs. -/

/-- Rule R21: no register is hard-wired, each holds what was last written, and there are no aliases. -/
def Obligations.EveryRegisterHoldsWhatIsWritten : Prop :=
  ∀ (s : State) (x k : Nibble) (b : Byte),
    (s.setV x b).getV k = (if k = x then b else s.getV k) ∧ s.setV x b = { s with v := (s.setV x b).v }

/-- Rules R121, R124: a return undoes the call, whatever the subroutine did to everything but the stack. -/
def Obligations.ReturnComesBackAfterCall : Prop :=
  ∀ (nnn : Addr12) (s t u : State), s.sp.val < 16 → exec (.call nnn) s = .next t →
    u.stack = t.stack → u.sp = t.sp →
    ∃ w, exec .ret u = .next w ∧ w.pc = s.pc ∧ w.sp = s.sp ∧ w = { u with pc := w.pc, sp := w.sp }

/-- Rules R66, R67, R74: a byte written is read back, every other address is left alone, and the canonical form of log
entry 12 is kept. -/
def Obligations.MemoryReadsTheLastWrite : Prop :=
  ∀ (m : Memory) (a : Nat) (b : Byte), m.wf = true → a ≤ 0xFFF →
    (m.write a b).wf = true ∧ (m.write a b).read a = b ∧ ∀ a', a' ≠ a → (m.write a b).read a' = m.read a'

/-- Two canonical memories that read alike at every address are the same list (the model's representation, log entry 12). -/
def Obligations.EqualMemoriesAreEqualData : Prop :=
  ∀ m m' : Memory, m.wf = true → m'.wf = true → (∀ a, a ≤ 0xFFF → m.read a = m'.read a) → m = m'

/-- Rule R213: `choose` takes a member of the sample, and the step's free input can make it any member (decision D19). -/
def Obligations.ChooseTakesAnyHeldKey : Prop :=
  ∀ (keys : KeySet) (p : KeyId), keys ≠ 0 →
    keys.getLsbD (chooseKey p keys).toNat = true ∧ (keys.getLsbD p.toNat = true → chooseKey p keys = p)

/-- Rule R214: a key pressed at one poll and released at the next completes the wait in that second call, once. -/
def Obligations.KeyWaitCompletesOnRelease : Prop :=
  ∀ (x : Nibble) (s t : State), s.latch = none → s.keys ≠ 0 → exec (.ldVxK x) s = .next t →
    t.pc = s.pc - 2 ∧ ∃ k : KeyId, t.latch = some k ∧ s.keys.getLsbD k.toNat = true ∧
      (t.keys.getLsbD k.toNat = false → ∃ u, exec (.ldVxK x) t.advance = .next u ∧
        (u.getV x).toNat = k.toNat ∧ u.latch = none ∧ u.pc = s.pc) ∧
      (t.keys.getLsbD k.toNat = true → ∃ u, exec (.ldVxK x) t.advance = .next u ∧
        u.pc = s.pc - 2 ∧ u.latch = some k ∧ u.v = s.v)

/-- Rule R195: the same draw twice, with no write to what it reads in between, restores the shadow; the second draw
collides exactly when the first turned a cell on (a law the spec derives from rule R190). -/
def Obligations.DoubleDrawRestoresTheShadow : Prop :=
  ∀ (x y n : Nibble) (s t u : State), x ≠ 0xF#4 → y ≠ 0xF#4 → inRange s n.toNat →
    exec (.drw x y n) s = .next t → u.fb = t.fb → u.idx = t.idx → u.mem = t.mem → u.getV x = t.getV x →
    u.getV y = t.getV y → ∃ w, exec (.drw x y n) u = .next w ∧ w.fb = s.fb ∧
      (w.getV 0xF#4 = 1 ↔ ∃ (r : Fin 32) (c : Nat), c < 64 ∧ toggles s x y n r.val c = true ∧
        s.fb.pixel r c = false)

/-- Rule R190: the draw is the cell-by-cell loop of the rule's pseudocode. The bit order of a sprite byte is log entry 16. -/
def Obligations.DrawRefinesTheCellLoop : Prop :=
  ∀ (x y n : Nibble) (s : State), inRange s n.toNat → ∃ t, exec (.drw x y n) s = .next t ∧
    t.fb = (drawLoop s ((s.getV x).toNat % 64) ((s.getV y).toNat % 32) n.toNat).1 ∧
    t.getV 0xF#4 =
      (if (drawLoop s ((s.getV x).toNat % 64) ((s.getV y).toNat % 32) n.toNat).2 = true then 1 else 0)

/-! Encoding. -/

/-- Rule R92: the decoder reads back every instruction from its word, with every operand. -/
def Obligations.DecodeInvertsEncode : Prop :=
  ∀ i : Instr, i.wellFormed = true → decodeWord (encode i) = .ok i ∧
    ∀ rest, decode (encodeBytes i ++ rest) = .ok (i, rest)

/-- The word is determined by the instruction it decodes to: no bit is dropped. -/
def Obligations.EncodeInvertsDecode : Prop :=
  ∀ (w : Word) (i : Instr), decodeWord w = .ok i → encode i = w ∧ i.wellFormed = true

/-- Rule R92: no word selects two rows of the opcode map, and exactly the words that select one decode. -/
def Obligations.OpcodeRowsNeverOverlap : Prop :=
  (∀ w : Word, ∀ r ∈ opcodeRows, ∀ q ∈ opcodeRows, r.selects w = true → q.selects w = true → r = q) ∧
  ∀ w : Word, (∃ i, decodeWord w = .ok i) ↔ supportedWord w = true

/-- Words written out from the spec's encodings, one of each of the sixteen families, and one that is rejected. -/
def Obligations.SpecWordsDecode : Prop :=
  decodeWord 0x00E0 = .ok .cls ∧ decodeWord 0x1ABC = .ok (.jp 0xABC) ∧ decodeWord 0x2300 = .ok (.call 0x300) ∧
  decodeWord 0x3342 = .ok (.seImm 3 0x42) ∧ decodeWord 0x4343 = .ok (.sneImm 3 0x43) ∧
  decodeWord 0x5127 = .ok (.seReg 1 2 7) ∧ decodeWord 0x6005 = .ok (.ldImm 0 5) ∧
  decodeWord 0x7102 = .ok (.addImm 1 2) ∧ decodeWord 0x8014 = .ok (.addReg 0 1) ∧
  decodeWord 0x9125 = .ok (.sneReg 1 2 5) ∧ decodeWord 0xA123 = .ok (.ldI 0x123) ∧
  decodeWord 0xB300 = .ok (.jpV0 0x300) ∧ decodeWord 0xC50F = .ok (.rnd 5 0x0F) ∧
  decodeWord 0xD125 = .ok (.drw 1 2 5) ∧ decodeWord 0xE5A1 = .ok (.sknp 5) ∧ decodeWord 0xF00A = .ok (.ldVxK 0) ∧
  decodeWord 0x0123 = .error (.unsupported 0x0123)

/-! The step. -/

/-- Rules R102 to R104: a step of a running engine runs the decoded instruction on the state with `PC` advanced past
it, and ends with the frame bookkeeping unless the instruction halted the engine. -/
def Obligations.StepRunsTheDecodedInstruction : Prop :=
  ∀ (s : State) (i : Instr), s.halt = .running → s.pc.toNat ≤ 4094 →
    decodeWord (s.mem.read s.pc.toNat ++ s.mem.read (s.pc.toNat + 1)) = .ok i →
    step s = finishStep (exec i { s with pc := s.pc + 2 })

/-- Rules R101, R245: above 4094 nothing is fetched, and the fetch error comes first. It is the spec's decision D8 that
this error is `AddressError`. -/
def Obligations.FetchAbove4094Halts : Prop :=
  ∀ s : State, s.halt = .running → s.pc.toNat > 4094 →
    step s = .next { s with halt := .halted .addressError none s.pc }

/-- Rules R96, R122: the words that name no instruction, and what executing one does. That nothing but `HALT` changes, and
what it records, is the spec's decision D11 (rule R243, log entries 7, 23). -/
def Obligations.UnsupportedWordsHalt : Prop :=
  (∀ w : Word, unsupportedBy96 w ↔ ∃ r, decodeWord w = .error r) ∧
  ∀ (s : State) (w : Word), s.halt = .running → s.pc.toNat ≤ 4094 →
    w = s.mem.read s.pc.toNat ++ s.mem.read (s.pc.toNat + 1) → unsupportedBy96 w →
    step s = .next { s with halt := .halted .unsupportedOpcode (some w) s.pc }

/-- Rules R100, R112: a running engine always has a step, a halted one never (decision D11). -/
def Obligations.StepExistsExactlyWhileRunning : Prop :=
  ∀ s : State, ((∃ t, step s = .next t) ↔ s.halt = .running) ∧
    (s.halt ≠ .running → step s = .fault .engineHalted)

/-- Rules R104, R112: every instruction answers a next state, from every state. -/
def Obligations.EveryInstructionAnswers : Prop :=
  ∀ (i : Instr) (s : State), ∃ t, exec i s = .next t

/-- Rule R241: the instructions it lists never raise an error; a jump or return to a bad address raises nothing itself, the
next fetch does; and no error is recoverable. The error of that fetch and its record are the spec's decisions D8 and D11 (log
entries 7, 23). -/
def Obligations.OnlyListedInstructionsRaise : Prop :=
  (∀ (i : Instr) (s : State), cannotRaise i = true → ∃ t, exec i s = .next t ∧ t.halt = s.halt) ∧
  (∀ s : State, 0 < s.sp.val → ∃ t, exec .ret s = .next t ∧ t.halt = s.halt) ∧
  (∀ s : State, s.halt = .running → s.pc.toNat > 4094 → ∃ t, step s = .next t ∧
    t.halt = .halted .addressError none s.pc) ∧
  ∀ s t : State, step s = .next t → t.halt ≠ .running → ∀ u, step t ≠ .next u

/-- Rules R105, R243: errors are precise (decisions D9, D11). A step that halts changes `HALT` alone; it records the
address of the failing instruction, the fetched word or none for a fetch error, and an execution-time error of rule
R240. -/
def Obligations.ErrorsArePrecise : Prop :=
  ∀ s t : State, step s = .next t → t.halt ≠ .running →
    ∃ code word, t = { s with halt := .halted code word s.pc } ∧ 3 ≤ code.number ∧ code.number ≤ 9 ∧
      word = (if s.pc.toNat > 4094 then none
        else some (s.mem.read s.pc.toNat ++ s.mem.read (s.pc.toNat + 1))) ∧
      (word = none → code = .addressError)

/-- Rules R106, R108, R260, R261: a completed instruction counts as one cycle; the `IPF`-th ends the frame with one
tick, for every `IPF` and both values of `BEEP_SAMPLE` (decisions D2, D21). -/
def Obligations.FrameBookkeepingFollowsCompletion : Prop :=
  ∀ (s t : State) (i : Instr), s.halt = .running → s.pc.toNat ≤ 4094 →
    decodeWord (s.mem.read s.pc.toNat ++ s.mem.read (s.pc.toNat + 1)) = .ok i →
    exec i { s with pc := s.pc + 2 } = .next t → t.halt = .running →
    (t.cyc + 1 ≠ t.params.ipf → step s = .next { t with cyc := t.cyc + 1 }) ∧
    (t.cyc + 1 = t.params.ipf → ∃ u, step s = .next u ∧ u.cyc = 0 ∧
      u.dt.toNat = t.dt.toNat - 1 ∧ u.st.toNat = t.st.toNat - 1 ∧
      u.beep = (if t.params.beepSample = .postDecrement then decide (u.st ≠ 0) else decide (t.st ≠ 0)) ∧
      u.portLog = (if u.beep then .startBeep else .stopBeep) :: t.portLog ∧
      u = { t with cyc := u.cyc, dt := u.dt, st := u.st, beep := u.beep, portLog := u.portLog })

/-- Rule R109: `CYC` counts completed cycles modulo `IPF`, over any run that is still running (a law the spec derives from
rule R108). -/
def Obligations.FramesAreIpfCyclesLong : Prop :=
  ∀ (n : Nat) (s t : State), s.cyc < s.params.ipf → Host.Core.run Sys2Proof.core n s = .next t →
    t.halt = .running → t.params.ipf = s.params.ipf ∧ t.cyc = (s.cyc + n) % s.params.ipf

/-- Rules R23, R32, R121 (laws the spec derives, with decision D3) and the canonical memory (log entry 12): every step keeps
the invariant. -/
def Obligations.StepKeepsTheInvariant : Prop :=
  ∀ s t : State, s.Inv → step s = .next t → t.Inv

/-- The invariant holds after reset (log entry 5), whatever `IPF` is (log entry 1). -/
def Obligations.ResetMeetsTheInvariant : Prop := State.reset.Inv

/-- Rule R29: no step changes the mode (nor a parameter, rule R6); only the instructions the rule lists depend on it, and
they only through `QUIRKS(MODE)`. -/
def Obligations.ModeIsReadOnlyAndReadThroughQuirks : Prop :=
  (∀ s t : State, step s = .next t → t.mode = s.mode ∧ t.params = s.params) ∧
  ∀ (i : Instr) (s : State) (m : Mode),
    (consultsMode i = false ∨ ({ s with mode := m } : State).quirks = s.quirks) →
    exec i { s with mode := m } = mapNext (fun t => { t with mode := m }) (exec i s)

/-- Rules R65, R69: under the policy `Fault` (decision D23) no step changes a byte of the font region. -/
def Obligations.FontRegionIsNeverMutated : Prop :=
  ∀ s t : State, s.mem.wf = true → s.params.fontWritePolicy = .fault → step s = .next t →
    ∀ a, 0x050 ≤ a → a ≤ 0x09F → t.mem.read a = s.mem.read a

/-- Rules R24, R42: the access table, which the spec derives from the instruction rules. -/
def Obligations.InstructionsWriteOnlyWhatTheTableLists : Prop :=
  ∀ (i : Instr) (s t : State), exec i s = .next t → t.halt = s.halt → s.halt = .running → WritesOnlyListed i s t

/-- Rules R22, R289: what a completing instruction must be to change VF. -/
def Obligations.VfChangesOnlyAsListed : Prop :=
  ∀ (i : Instr) (s t : State), exec i s = .next t → t.getV 0xF#4 ≠ s.getV 0xF#4 → mayWriteVf s i

/-- Rules R32, R33: no instruction reads BEEP or CYC, nor the model's record of port events: with other values
there, it does the same to everything else. -/
def Obligations.OutputsAreNeverReadBack : Prop :=
  ∀ (i : Instr) (s : State) (b : Bool) (c : Nat) (log : List PortEvent),
    ∃ t new, exec i s = .next t ∧ t.portLog = new ++ s.portLog ∧
      exec i { s with beep := b, cyc := c, portLog := log } =
        .next { t with beep := b, cyc := c, portLog := new ++ log }

/-! Initialisation. -/

/-- Rules R40, R62, R280, R281 (decisions D5, D6, D12, D29 among them). -/
def Obligations.InitialisationGivesTheResetValues : Prop :=
  ∀ (p : Params) (font : Vector Byte 80) (image : List Byte) (sel : Nat),
    (2 < sel → boot p font image sel = .error .modeError) ∧
    (sel ≤ 2 → 3584 < image.length → boot p font image sel = .error .loadError) ∧
    (sel ≤ 2 → image.length ≤ 3584 → ∃ s, boot p font image sel = .ok s ∧ s.mem.wf = true ∧
      (∀ a, a ≤ 0xFFF → s.mem.read a =
        if 0x200 ≤ a then image.getD (a - 0x200) 0
        else if 0x050 ≤ a ∧ a ≤ 0x09F then font.toList.getD (a - 0x050) 0 else 0) ∧
      s.pc = 0x200 ∧ (∀ k, s.getV k = 0) ∧ s.idx = 0 ∧ s.sp = 0 ∧ s.stack = Vector.replicate 16 0 ∧
      s.dt = 0 ∧ s.st = 0 ∧ s.beep = false ∧ s.cyc = 0 ∧ s.latch = none ∧
      (∀ r c, s.fb.pixel r c = false) ∧ s.halt = .running ∧ s.params = p ∧
      s.mode = (if sel = 0 then .chip8 else if sel = 1 then .schip else .xochip))

/-- Log entry 5 (the model's choice): the reset state is that of an empty image in mode CHIP8 with the default
parameters and font. -/
def Obligations.ResetIsInitialisationOfNoProgram : Prop :=
  boot defaultParams defaultFont [] 0 = .ok State.reset

/-! The free inputs. -/

/-- Rules R17, R34, R35, R107 (decisions D19, D24, D25; log entries 2, 13): what a step takes from its free inputs. A step
whose instruction completes takes exactly the samples the instruction draws, one key sample under EX9E, EXA1 and FX0A, one
random byte under CXNN, and one choice where FX0A latches; every other step, a failing one included, takes none. What it
takes is the sample named next. -/
def Obligations.EachStepTakesExactlyItsSamples : Prop :=
  (∀ s : State, sampledKeys s ∧ sampledRand s) ∧
  ∀ s t : State, step s = .next t →
    (t.halt ≠ .running → t.inputs = s.inputs) ∧
    ∀ i, t.halt = .running → decodeWord (s.mem.read s.pc.toNat ++ s.mem.read (s.pc.toNat + 1)) = .ok i →
      t.inputs = inputsAfter s i
end

