-- ==== Sys2Proof/Laws/Decode.lean ====
section
/-! SUPPORT. The fields of a packed word (rule R81), and the parts a word is packed of. -/

namespace Sys2Proof

/-- The fields of `family ++ nnn`. -/
theorem packNNN_fields (f : Nibble) (a : Addr12) :
    (decodeFields (packNNN f a)).family = f ∧ (decodeFields (packNNN f a)).nnn = a := by
  constructor <;> refine BitVec.eq_of_getLsbD_eq fun i hi => ?_
  · simp only [decodeFields, packNNN, BitVec.getLsbD_extractLsb', BitVec.getLsbD_append]
    simp [hi]
  · simp only [decodeFields, packNNN, BitVec.getLsbD_extractLsb', BitVec.getLsbD_append]
    simp [hi]

/-- The fields of `family ++ x ++ nn`. -/
theorem packXNN_fields (f x : Nibble) (b : Byte) :
    (decodeFields (packXNN f x b)).family = f ∧ (decodeFields (packXNN f x b)).x = x ∧
      (decodeFields (packXNN f x b)).nn = b := by
  refine ⟨?_, ?_, ?_⟩ <;> refine BitVec.eq_of_getLsbD_eq fun i hi => ?_
  all_goals simp only [decodeFields, packXNN, BitVec.getLsbD_extractLsb', BitVec.getLsbD_append]
  · simp [hi, show ¬ 12 + i < 8 by omega, show ¬ 12 + i - 8 < 4 by omega, show 12 + i - 8 - 4 = i by omega]
  · simp [hi, show ¬ 8 + i < 8 by omega]
  · simp [hi]

/-- The fields of `family ++ x ++ y ++ n`. -/
theorem packXYN_fields (f x y n : Nibble) :
    (decodeFields (packXYN f x y n)).family = f ∧ (decodeFields (packXYN f x y n)).x = x ∧
      (decodeFields (packXYN f x y n)).y = y ∧ (decodeFields (packXYN f x y n)).n = n := by
  refine ⟨?_, ?_, ?_, ?_⟩ <;> refine BitVec.eq_of_getLsbD_eq fun i hi => ?_
  all_goals simp only [decodeFields, packXYN, BitVec.getLsbD_extractLsb', BitVec.getLsbD_append]
  · simp [hi, show ¬ 12 + i < 8 by omega, show ¬ 12 + i - 8 < 4 by omega, show 12 + i - 8 - 4 = i by omega]
  · simp [hi, show ¬ 8 + i < 8 by omega]
  · simp [hi, show 4 + i < 8 by omega]
  · simp [hi, show i < 8 by omega]

/-- A word is its family and its 12-bit immediate. -/
theorem packNNN_decode (w : Word) : packNNN (decodeFields w).family (decodeFields w).nnn = w := by
  refine BitVec.eq_of_getLsbD_eq fun i hi => ?_
  simp only [decodeFields, packNNN, BitVec.getLsbD_extractLsb', BitVec.getLsbD_append]
  by_cases h : i < 12
  · simp [h]
  · simp [h, show i - 12 < 4 by omega, show 12 + (i - 12) = i by omega]

/-- A word is its family, `x` and `nn`. -/
theorem packXNN_decode (w : Word) : packXNN (decodeFields w).family (decodeFields w).x (decodeFields w).nn = w := by
  refine BitVec.eq_of_getLsbD_eq fun i hi => ?_
  simp only [decodeFields, packXNN, BitVec.getLsbD_extractLsb', BitVec.getLsbD_append]
  by_cases h : i < 8
  · simp [h]
  · by_cases h2 : i < 12
    · simp [h, show i - 8 < 4 by omega, show 8 + (i - 8) = i by omega]
    · simp [h, show ¬ i - 8 < 4 by omega, show i - 8 - 4 < 4 by omega, show 12 + (i - 8 - 4) = i by omega]

/-- A word is its family, `x`, `y` and `n`. -/
theorem packXYN_decode (w : Word) :
    packXYN (decodeFields w).family (decodeFields w).x (decodeFields w).y (decodeFields w).n = w := by
  refine BitVec.eq_of_getLsbD_eq fun i hi => ?_
  simp only [decodeFields, packXYN, BitVec.getLsbD_extractLsb', BitVec.getLsbD_append]
  by_cases h : i < 4
  · simp [h, show i < 8 by omega]
  · by_cases h1 : i < 8
    · simp [h, h1, show i - 4 < 4 by omega, show 4 + (i - 4) = i by omega]
    · by_cases h2 : i < 12
      · simp [h1, show i - 8 < 4 by omega, show 8 + (i - 8) = i by omega]
      · simp [h1, show ¬ i - 8 < 4 by omega, show i - 8 - 4 < 4 by omega, show 12 + (i - 8 - 4) = i by omega]

/-- Rule R70: the two bytes of a word give the word back. -/
theorem wordOfBytes_bytes (w : Word) : wordOfBytes (w.extractLsb' 8 8) (w.extractLsb' 0 8) = w := by
  refine BitVec.eq_of_getLsbD_eq fun i hi => ?_
  simp only [wordOfBytes, BitVec.getLsbD_append, BitVec.getLsbD_extractLsb']
  by_cases h : i < 8
  · simp [h]
  · simp [h, show i - 8 < 8 by omega, show 8 + (i - 8) = i by omega]

end Sys2Proof
end

