-- ==== Sys2Proof/Laws/Memory.lean ====
section
/-! SUPPORT. The memory store: read after write, the canonical form, and byte strings (rules R66, R67, R74). -/

namespace Sys2Proof.Machine

namespace Memory

/-- The canonical form weakens to a lower bound. -/
theorem wfFrom_mono {lo lo' : Nat} (h : lo' ≤ lo) : ∀ {m : Memory}, wfFrom lo m = true → wfFrom lo' m = true
  | [], _ => rfl
  | (a, b) :: m, hm => by
    simp only [wfFrom, Bool.and_eq_true, decide_eq_true_eq] at hm ⊢
    exact ⟨⟨⟨by omega, hm.1.1.2⟩, hm.1.2⟩, hm.2⟩

/-- An address below the listed ones reads as unlisted. -/
theorem read_below {a lo : Nat} (h : a < lo) : ∀ {m : Memory}, wfFrom lo m = true → read m a = unlisted a
  | [], _ => rfl
  | (k, c) :: m, hm => by
    simp only [wfFrom, Bool.and_eq_true, decide_eq_true_eq] at hm
    have hk : k ≠ a := by omega
    rw [read, if_neg hk]
    exact read_below (by omega) hm.2

theorem read_place {m : Memory} {a : Nat} {b : Byte} (h : wfFrom (a + 1) m = true) (a' : Nat) :
    read (place a b m) a' = if a' = a then b else read m a' := by
  unfold place
  by_cases hb : b = unlisted a
  · by_cases ha : a' = a
    · subst ha; simp [hb, read_below (Nat.lt_succ_self _) h]
    · simp [hb, ha]
  · by_cases ha : a' = a
    · simp [hb, ha, read]
    · simp [hb, ha, read, Ne.symm ha]

/-- Rules R67, R74: a write is read back at its address and leaves every other address alone. -/
theorem read_write : ∀ {m : Memory} {lo : Nat}, wfFrom lo m = true → ∀ (a : Nat) (b : Byte) (a' : Nat),
    read (write m a b) a' = if a' = a then b else read m a'
  | [], _, _, a, b, a' => by rw [write]; exact read_place (m := []) rfl a'
  | (k, c) :: m, lo, hm, a, b, a' => by
    have hm' := hm
    simp only [wfFrom, Bool.and_eq_true, decide_eq_true_eq] at hm'
    obtain ⟨⟨⟨h1, h2⟩, h3⟩, h4⟩ := hm'
    rw [write]
    rcases Nat.lt_trichotomy a k with h | h | h
    · have hx : wfFrom (a + 1) ((k, c) :: m) = true := by
        simp only [wfFrom, Bool.and_eq_true, decide_eq_true_eq]
        exact ⟨⟨⟨by omega, h2⟩, h3⟩, h4⟩
      rw [if_pos h, read_place hx]
    · subst h
      rw [if_neg (by omega), if_pos rfl, read_place h4]
      by_cases e : a' = a
      · simp [e]
      · simp [e, read, Ne.symm e]
    · rw [if_neg (by omega), if_neg (by omega), read, read, read_write h4]
      by_cases e : k = a'
      · have : a' ≠ a := by omega
        simp [e, this]
      · simp [e]

/-- A write keeps the canonical form. -/
theorem wfFrom_write : ∀ {m : Memory} {lo a : Nat}, wfFrom lo m = true → lo ≤ a → a < memorySize → ∀ (b : Byte),
    wfFrom lo (write m a b) = true
  | [], lo, a, _, hlo, ha, b => by
    rw [write, place]
    split
    · rfl
    · simp_all [wfFrom]
  | (k, c) :: m, lo, a, hm, hlo, ha, b => by
    have hm' := hm
    simp only [wfFrom, Bool.and_eq_true, decide_eq_true_eq] at hm'
    obtain ⟨⟨⟨h1, h2⟩, h3⟩, h4⟩ := hm'
    rw [write]
    split
    · rw [place]
      split
      · exact hm
      · simp_all [wfFrom]
    · split
      · subst a
        rw [place]
        split
        · exact wfFrom_mono (by omega) h4
        · simp_all [wfFrom]
      · simp only [wfFrom, Bool.and_eq_true, decide_eq_true_eq]
        exact ⟨⟨⟨h1, h2⟩, h3⟩, wfFrom_write h4 (by omega) ha b⟩

theorem wf_write {m : Memory} {a : Nat} (hm : m.wf = true) (ha : a < memorySize) (b : Byte) :
    (m.write a b).wf = true := wfFrom_write hm (Nat.zero_le _) ha b

/-- A byte string written keeps the canonical form. -/
theorem wf_writeBytes : ∀ (bs : List Byte) {m : Memory} {a : Nat}, m.wf = true → a + bs.length ≤ memorySize →
    (m.writeBytes a bs).wf = true
  | [], _, _, hm, _ => hm
  | b :: bs, m, a, hm, h => by
    rw [List.length_cons] at h
    exact wf_writeBytes bs (wf_write hm (by omega) b) (by omega)

/-- A byte string is read back where it was written, and every other address reads as before. -/
theorem read_writeBytes : ∀ (bs : List Byte) {m : Memory} {a : Nat}, m.wf = true → a + bs.length ≤ memorySize →
    ∀ a', read (m.writeBytes a bs) a' =
      if h : a ≤ a' ∧ a' < a + bs.length then bs[a' - a]'(by omega) else read m a'
  | [], m, a, _, _, a' => by
    have : ¬(a ≤ a' ∧ a' < a + ([] : List Byte).length) := by simp
    rw [dif_neg this, writeBytes]
  | b :: bs, m, a, hm, h, a' => by
    have hl : (b :: bs).length = bs.length + 1 := List.length_cons
    rw [writeBytes, read_writeBytes bs (wf_write hm (by omega) b) (by omega), read_write hm]
    by_cases h1 : a + 1 ≤ a' ∧ a' < a + 1 + bs.length
    · have h2 : a ≤ a' ∧ a' < a + (b :: bs).length := by omega
      have e : a' - a = (a' - (a + 1)) + 1 := by omega
      rw [dif_pos h1, dif_pos h2]
      simp [e]
    · rw [dif_neg h1]
      by_cases e : a' = a
      · subst e; simp
      · have h2 : ¬(a ≤ a' ∧ a' < a + (b :: bs).length) := by omega
        rw [dif_neg h2, if_neg e]

@[simp] theorem length_readBytes (m : Memory) : ∀ (n a : Nat), (m.readBytes a n).length = n
  | 0, _ => rfl
  | n + 1, a => by simp [readBytes, length_readBytes m n]

theorem getElem_readBytes (m : Memory) : ∀ (n a k : Nat) (h : k < (m.readBytes a n).length),
    (m.readBytes a n)[k] = m.read (a + k)
  | 0, _, _, h => by simp [readBytes] at h
  | n + 1, a, 0, _ => by simp [readBytes]
  | n + 1, a, k + 1, _ => by
    simp only [readBytes, List.getElem_cons_succ]
    rw [getElem_readBytes m n]
    congr 1; omega

end Memory

end Sys2Proof.Machine
end

