-- ==== Sys2Proof/Laws/State.lean ====
section
/-! SUPPORT. One lemma per field per update of State, each true by rfl: what an update leaves alone and what it writes. -/

namespace Sys2Proof.Machine

section Updates

variable (s : State)

/-! setV: V[x] <- b. -/

@[simp] theorem State.setV_mem (x : Nibble) (b : Byte) : (s.setV x b).mem = s.mem := rfl
@[simp] theorem State.setV_v (x : Nibble) (b : Byte) : (s.setV x b).v = s.v.set x.toNat b x.isLt := rfl
@[simp] theorem State.setV_pc (x : Nibble) (b : Byte) : (s.setV x b).pc = s.pc := rfl
@[simp] theorem State.setV_idx (x : Nibble) (b : Byte) : (s.setV x b).idx = s.idx := rfl
@[simp] theorem State.setV_stack (x : Nibble) (b : Byte) : (s.setV x b).stack = s.stack := rfl
@[simp] theorem State.setV_sp (x : Nibble) (b : Byte) : (s.setV x b).sp = s.sp := rfl
@[simp] theorem State.setV_dt (x : Nibble) (b : Byte) : (s.setV x b).dt = s.dt := rfl
@[simp] theorem State.setV_st (x : Nibble) (b : Byte) : (s.setV x b).st = s.st := rfl
@[simp] theorem State.setV_beep (x : Nibble) (b : Byte) : (s.setV x b).beep = s.beep := rfl
@[simp] theorem State.setV_cyc (x : Nibble) (b : Byte) : (s.setV x b).cyc = s.cyc := rfl
@[simp] theorem State.setV_latch (x : Nibble) (b : Byte) : (s.setV x b).latch = s.latch := rfl
@[simp] theorem State.setV_fb (x : Nibble) (b : Byte) : (s.setV x b).fb = s.fb := rfl
@[simp] theorem State.setV_mode (x : Nibble) (b : Byte) : (s.setV x b).mode = s.mode := rfl
@[simp] theorem State.setV_halt (x : Nibble) (b : Byte) : (s.setV x b).halt = s.halt := rfl
@[simp] theorem State.setV_params (x : Nibble) (b : Byte) : (s.setV x b).params = s.params := rfl
@[simp] theorem State.setV_inputs (x : Nibble) (b : Byte) : (s.setV x b).inputs = s.inputs := rfl
@[simp] theorem State.setV_portLog (x : Nibble) (b : Byte) : (s.setV x b).portLog = s.portLog := rfl

/-! setPc: PC <- a. -/

@[simp] theorem State.setPc_mem (a : Word) : (s.setPc a).mem = s.mem := rfl
@[simp] theorem State.setPc_v (a : Word) : (s.setPc a).v = s.v := rfl
@[simp] theorem State.setPc_pc (a : Word) : (s.setPc a).pc = a := rfl
@[simp] theorem State.setPc_idx (a : Word) : (s.setPc a).idx = s.idx := rfl
@[simp] theorem State.setPc_stack (a : Word) : (s.setPc a).stack = s.stack := rfl
@[simp] theorem State.setPc_sp (a : Word) : (s.setPc a).sp = s.sp := rfl
@[simp] theorem State.setPc_dt (a : Word) : (s.setPc a).dt = s.dt := rfl
@[simp] theorem State.setPc_st (a : Word) : (s.setPc a).st = s.st := rfl
@[simp] theorem State.setPc_beep (a : Word) : (s.setPc a).beep = s.beep := rfl
@[simp] theorem State.setPc_cyc (a : Word) : (s.setPc a).cyc = s.cyc := rfl
@[simp] theorem State.setPc_latch (a : Word) : (s.setPc a).latch = s.latch := rfl
@[simp] theorem State.setPc_fb (a : Word) : (s.setPc a).fb = s.fb := rfl
@[simp] theorem State.setPc_mode (a : Word) : (s.setPc a).mode = s.mode := rfl
@[simp] theorem State.setPc_halt (a : Word) : (s.setPc a).halt = s.halt := rfl
@[simp] theorem State.setPc_params (a : Word) : (s.setPc a).params = s.params := rfl
@[simp] theorem State.setPc_inputs (a : Word) : (s.setPc a).inputs = s.inputs := rfl
@[simp] theorem State.setPc_portLog (a : Word) : (s.setPc a).portLog = s.portLog := rfl

/-! setI: I <- a. -/

@[simp] theorem State.setI_mem (a : Word) : (s.setI a).mem = s.mem := rfl
@[simp] theorem State.setI_v (a : Word) : (s.setI a).v = s.v := rfl
@[simp] theorem State.setI_pc (a : Word) : (s.setI a).pc = s.pc := rfl
@[simp] theorem State.setI_idx (a : Word) : (s.setI a).idx = a := rfl
@[simp] theorem State.setI_stack (a : Word) : (s.setI a).stack = s.stack := rfl
@[simp] theorem State.setI_sp (a : Word) : (s.setI a).sp = s.sp := rfl
@[simp] theorem State.setI_dt (a : Word) : (s.setI a).dt = s.dt := rfl
@[simp] theorem State.setI_st (a : Word) : (s.setI a).st = s.st := rfl
@[simp] theorem State.setI_beep (a : Word) : (s.setI a).beep = s.beep := rfl
@[simp] theorem State.setI_cyc (a : Word) : (s.setI a).cyc = s.cyc := rfl
@[simp] theorem State.setI_latch (a : Word) : (s.setI a).latch = s.latch := rfl
@[simp] theorem State.setI_fb (a : Word) : (s.setI a).fb = s.fb := rfl
@[simp] theorem State.setI_mode (a : Word) : (s.setI a).mode = s.mode := rfl
@[simp] theorem State.setI_halt (a : Word) : (s.setI a).halt = s.halt := rfl
@[simp] theorem State.setI_params (a : Word) : (s.setI a).params = s.params := rfl
@[simp] theorem State.setI_inputs (a : Word) : (s.setI a).inputs = s.inputs := rfl
@[simp] theorem State.setI_portLog (a : Word) : (s.setI a).portLog = s.portLog := rfl

/-! setDt: DT <- b. -/

@[simp] theorem State.setDt_mem (b : Byte) : (s.setDt b).mem = s.mem := rfl
@[simp] theorem State.setDt_v (b : Byte) : (s.setDt b).v = s.v := rfl
@[simp] theorem State.setDt_pc (b : Byte) : (s.setDt b).pc = s.pc := rfl
@[simp] theorem State.setDt_idx (b : Byte) : (s.setDt b).idx = s.idx := rfl
@[simp] theorem State.setDt_stack (b : Byte) : (s.setDt b).stack = s.stack := rfl
@[simp] theorem State.setDt_sp (b : Byte) : (s.setDt b).sp = s.sp := rfl
@[simp] theorem State.setDt_dt (b : Byte) : (s.setDt b).dt = b := rfl
@[simp] theorem State.setDt_st (b : Byte) : (s.setDt b).st = s.st := rfl
@[simp] theorem State.setDt_beep (b : Byte) : (s.setDt b).beep = s.beep := rfl
@[simp] theorem State.setDt_cyc (b : Byte) : (s.setDt b).cyc = s.cyc := rfl
@[simp] theorem State.setDt_latch (b : Byte) : (s.setDt b).latch = s.latch := rfl
@[simp] theorem State.setDt_fb (b : Byte) : (s.setDt b).fb = s.fb := rfl
@[simp] theorem State.setDt_mode (b : Byte) : (s.setDt b).mode = s.mode := rfl
@[simp] theorem State.setDt_halt (b : Byte) : (s.setDt b).halt = s.halt := rfl
@[simp] theorem State.setDt_params (b : Byte) : (s.setDt b).params = s.params := rfl
@[simp] theorem State.setDt_inputs (b : Byte) : (s.setDt b).inputs = s.inputs := rfl
@[simp] theorem State.setDt_portLog (b : Byte) : (s.setDt b).portLog = s.portLog := rfl

/-! setSt: ST <- b. -/

@[simp] theorem State.setSt_mem (b : Byte) : (s.setSt b).mem = s.mem := rfl
@[simp] theorem State.setSt_v (b : Byte) : (s.setSt b).v = s.v := rfl
@[simp] theorem State.setSt_pc (b : Byte) : (s.setSt b).pc = s.pc := rfl
@[simp] theorem State.setSt_idx (b : Byte) : (s.setSt b).idx = s.idx := rfl
@[simp] theorem State.setSt_stack (b : Byte) : (s.setSt b).stack = s.stack := rfl
@[simp] theorem State.setSt_sp (b : Byte) : (s.setSt b).sp = s.sp := rfl
@[simp] theorem State.setSt_dt (b : Byte) : (s.setSt b).dt = s.dt := rfl
@[simp] theorem State.setSt_st (b : Byte) : (s.setSt b).st = b := rfl
@[simp] theorem State.setSt_beep (b : Byte) : (s.setSt b).beep = s.beep := rfl
@[simp] theorem State.setSt_cyc (b : Byte) : (s.setSt b).cyc = s.cyc := rfl
@[simp] theorem State.setSt_latch (b : Byte) : (s.setSt b).latch = s.latch := rfl
@[simp] theorem State.setSt_fb (b : Byte) : (s.setSt b).fb = s.fb := rfl
@[simp] theorem State.setSt_mode (b : Byte) : (s.setSt b).mode = s.mode := rfl
@[simp] theorem State.setSt_halt (b : Byte) : (s.setSt b).halt = s.halt := rfl
@[simp] theorem State.setSt_params (b : Byte) : (s.setSt b).params = s.params := rfl
@[simp] theorem State.setSt_inputs (b : Byte) : (s.setSt b).inputs = s.inputs := rfl
@[simp] theorem State.setSt_portLog (b : Byte) : (s.setSt b).portLog = s.portLog := rfl

/-! setLatch: LATCH <- l. -/

@[simp] theorem State.setLatch_mem (l : Option KeyId) : (s.setLatch l).mem = s.mem := rfl
@[simp] theorem State.setLatch_v (l : Option KeyId) : (s.setLatch l).v = s.v := rfl
@[simp] theorem State.setLatch_pc (l : Option KeyId) : (s.setLatch l).pc = s.pc := rfl
@[simp] theorem State.setLatch_idx (l : Option KeyId) : (s.setLatch l).idx = s.idx := rfl
@[simp] theorem State.setLatch_stack (l : Option KeyId) : (s.setLatch l).stack = s.stack := rfl
@[simp] theorem State.setLatch_sp (l : Option KeyId) : (s.setLatch l).sp = s.sp := rfl
@[simp] theorem State.setLatch_dt (l : Option KeyId) : (s.setLatch l).dt = s.dt := rfl
@[simp] theorem State.setLatch_st (l : Option KeyId) : (s.setLatch l).st = s.st := rfl
@[simp] theorem State.setLatch_beep (l : Option KeyId) : (s.setLatch l).beep = s.beep := rfl
@[simp] theorem State.setLatch_cyc (l : Option KeyId) : (s.setLatch l).cyc = s.cyc := rfl
@[simp] theorem State.setLatch_latch (l : Option KeyId) : (s.setLatch l).latch = l := rfl
@[simp] theorem State.setLatch_fb (l : Option KeyId) : (s.setLatch l).fb = s.fb := rfl
@[simp] theorem State.setLatch_mode (l : Option KeyId) : (s.setLatch l).mode = s.mode := rfl
@[simp] theorem State.setLatch_halt (l : Option KeyId) : (s.setLatch l).halt = s.halt := rfl
@[simp] theorem State.setLatch_params (l : Option KeyId) : (s.setLatch l).params = s.params := rfl
@[simp] theorem State.setLatch_inputs (l : Option KeyId) : (s.setLatch l).inputs = s.inputs := rfl
@[simp] theorem State.setLatch_portLog (l : Option KeyId) : (s.setLatch l).portLog = s.portLog := rfl

/-! setFb: FB <- fb. -/

@[simp] theorem State.setFb_mem (fb : Framebuffer) : (s.setFb fb).mem = s.mem := rfl
@[simp] theorem State.setFb_v (fb : Framebuffer) : (s.setFb fb).v = s.v := rfl
@[simp] theorem State.setFb_pc (fb : Framebuffer) : (s.setFb fb).pc = s.pc := rfl
@[simp] theorem State.setFb_idx (fb : Framebuffer) : (s.setFb fb).idx = s.idx := rfl
@[simp] theorem State.setFb_stack (fb : Framebuffer) : (s.setFb fb).stack = s.stack := rfl
@[simp] theorem State.setFb_sp (fb : Framebuffer) : (s.setFb fb).sp = s.sp := rfl
@[simp] theorem State.setFb_dt (fb : Framebuffer) : (s.setFb fb).dt = s.dt := rfl
@[simp] theorem State.setFb_st (fb : Framebuffer) : (s.setFb fb).st = s.st := rfl
@[simp] theorem State.setFb_beep (fb : Framebuffer) : (s.setFb fb).beep = s.beep := rfl
@[simp] theorem State.setFb_cyc (fb : Framebuffer) : (s.setFb fb).cyc = s.cyc := rfl
@[simp] theorem State.setFb_latch (fb : Framebuffer) : (s.setFb fb).latch = s.latch := rfl
@[simp] theorem State.setFb_fb (fb : Framebuffer) : (s.setFb fb).fb = fb := rfl
@[simp] theorem State.setFb_mode (fb : Framebuffer) : (s.setFb fb).mode = s.mode := rfl
@[simp] theorem State.setFb_halt (fb : Framebuffer) : (s.setFb fb).halt = s.halt := rfl
@[simp] theorem State.setFb_params (fb : Framebuffer) : (s.setFb fb).params = s.params := rfl
@[simp] theorem State.setFb_inputs (fb : Framebuffer) : (s.setFb fb).inputs = s.inputs := rfl
@[simp] theorem State.setFb_portLog (fb : Framebuffer) : (s.setFb fb).portLog = s.portLog := rfl

/-! emit: a port event. -/

@[simp] theorem State.emit_mem (e : PortEvent) : (s.emit e).mem = s.mem := rfl
@[simp] theorem State.emit_v (e : PortEvent) : (s.emit e).v = s.v := rfl
@[simp] theorem State.emit_pc (e : PortEvent) : (s.emit e).pc = s.pc := rfl
@[simp] theorem State.emit_idx (e : PortEvent) : (s.emit e).idx = s.idx := rfl
@[simp] theorem State.emit_stack (e : PortEvent) : (s.emit e).stack = s.stack := rfl
@[simp] theorem State.emit_sp (e : PortEvent) : (s.emit e).sp = s.sp := rfl
@[simp] theorem State.emit_dt (e : PortEvent) : (s.emit e).dt = s.dt := rfl
@[simp] theorem State.emit_st (e : PortEvent) : (s.emit e).st = s.st := rfl
@[simp] theorem State.emit_beep (e : PortEvent) : (s.emit e).beep = s.beep := rfl
@[simp] theorem State.emit_cyc (e : PortEvent) : (s.emit e).cyc = s.cyc := rfl
@[simp] theorem State.emit_latch (e : PortEvent) : (s.emit e).latch = s.latch := rfl
@[simp] theorem State.emit_fb (e : PortEvent) : (s.emit e).fb = s.fb := rfl
@[simp] theorem State.emit_mode (e : PortEvent) : (s.emit e).mode = s.mode := rfl
@[simp] theorem State.emit_halt (e : PortEvent) : (s.emit e).halt = s.halt := rfl
@[simp] theorem State.emit_params (e : PortEvent) : (s.emit e).params = s.params := rfl
@[simp] theorem State.emit_inputs (e : PortEvent) : (s.emit e).inputs = s.inputs := rfl
@[simp] theorem State.emit_portLog (e : PortEvent) : (s.emit e).portLog = e :: s.portLog := rfl

/-! keysTaken: the sample Keys taken. -/

@[simp] theorem State.keysTaken_mem : s.keysTaken.mem = s.mem := rfl
@[simp] theorem State.keysTaken_v : s.keysTaken.v = s.v := rfl
@[simp] theorem State.keysTaken_pc : s.keysTaken.pc = s.pc := rfl
@[simp] theorem State.keysTaken_idx : s.keysTaken.idx = s.idx := rfl
@[simp] theorem State.keysTaken_stack : s.keysTaken.stack = s.stack := rfl
@[simp] theorem State.keysTaken_sp : s.keysTaken.sp = s.sp := rfl
@[simp] theorem State.keysTaken_dt : s.keysTaken.dt = s.dt := rfl
@[simp] theorem State.keysTaken_st : s.keysTaken.st = s.st := rfl
@[simp] theorem State.keysTaken_beep : s.keysTaken.beep = s.beep := rfl
@[simp] theorem State.keysTaken_cyc : s.keysTaken.cyc = s.cyc := rfl
@[simp] theorem State.keysTaken_latch : s.keysTaken.latch = s.latch := rfl
@[simp] theorem State.keysTaken_fb : s.keysTaken.fb = s.fb := rfl
@[simp] theorem State.keysTaken_mode : s.keysTaken.mode = s.mode := rfl
@[simp] theorem State.keysTaken_halt : s.keysTaken.halt = s.halt := rfl
@[simp] theorem State.keysTaken_params : s.keysTaken.params = s.params := rfl
@[simp] theorem State.keysTaken_inputs :
    s.keysTaken.inputs = { s.inputs with keySamples := s.inputs.keySamples.tail, draws := s.inputs.draws + 1 } := rfl
@[simp] theorem State.keysTaken_portLog : s.keysTaken.portLog = s.portLog := rfl

/-! randTaken: the sample Rand taken. -/

@[simp] theorem State.randTaken_mem : s.randTaken.mem = s.mem := rfl
@[simp] theorem State.randTaken_v : s.randTaken.v = s.v := rfl
@[simp] theorem State.randTaken_pc : s.randTaken.pc = s.pc := rfl
@[simp] theorem State.randTaken_idx : s.randTaken.idx = s.idx := rfl
@[simp] theorem State.randTaken_stack : s.randTaken.stack = s.stack := rfl
@[simp] theorem State.randTaken_sp : s.randTaken.sp = s.sp := rfl
@[simp] theorem State.randTaken_dt : s.randTaken.dt = s.dt := rfl
@[simp] theorem State.randTaken_st : s.randTaken.st = s.st := rfl
@[simp] theorem State.randTaken_beep : s.randTaken.beep = s.beep := rfl
@[simp] theorem State.randTaken_cyc : s.randTaken.cyc = s.cyc := rfl
@[simp] theorem State.randTaken_latch : s.randTaken.latch = s.latch := rfl
@[simp] theorem State.randTaken_fb : s.randTaken.fb = s.fb := rfl
@[simp] theorem State.randTaken_mode : s.randTaken.mode = s.mode := rfl
@[simp] theorem State.randTaken_halt : s.randTaken.halt = s.halt := rfl
@[simp] theorem State.randTaken_params : s.randTaken.params = s.params := rfl
@[simp] theorem State.randTaken_inputs :
    s.randTaken.inputs = { s.inputs with randBytes := s.inputs.randBytes.tail, draws := s.inputs.draws + 1 } := rfl
@[simp] theorem State.randTaken_portLog : s.randTaken.portLog = s.portLog := rfl

/-! choiceTaken: the input of choose taken. -/

@[simp] theorem State.choiceTaken_mem : s.choiceTaken.mem = s.mem := rfl
@[simp] theorem State.choiceTaken_v : s.choiceTaken.v = s.v := rfl
@[simp] theorem State.choiceTaken_pc : s.choiceTaken.pc = s.pc := rfl
@[simp] theorem State.choiceTaken_idx : s.choiceTaken.idx = s.idx := rfl
@[simp] theorem State.choiceTaken_stack : s.choiceTaken.stack = s.stack := rfl
@[simp] theorem State.choiceTaken_sp : s.choiceTaken.sp = s.sp := rfl
@[simp] theorem State.choiceTaken_dt : s.choiceTaken.dt = s.dt := rfl
@[simp] theorem State.choiceTaken_st : s.choiceTaken.st = s.st := rfl
@[simp] theorem State.choiceTaken_beep : s.choiceTaken.beep = s.beep := rfl
@[simp] theorem State.choiceTaken_cyc : s.choiceTaken.cyc = s.cyc := rfl
@[simp] theorem State.choiceTaken_latch : s.choiceTaken.latch = s.latch := rfl
@[simp] theorem State.choiceTaken_fb : s.choiceTaken.fb = s.fb := rfl
@[simp] theorem State.choiceTaken_mode : s.choiceTaken.mode = s.mode := rfl
@[simp] theorem State.choiceTaken_halt : s.choiceTaken.halt = s.halt := rfl
@[simp] theorem State.choiceTaken_params : s.choiceTaken.params = s.params := rfl
@[simp] theorem State.choiceTaken_inputs :
    s.choiceTaken.inputs = { s.inputs with choices := s.inputs.choices.tail, draws := s.inputs.draws + 1 } := rfl
@[simp] theorem State.choiceTaken_portLog : s.choiceTaken.portLog = s.portLog := rfl

/-! haltAt: a fatal error. -/

@[simp] theorem State.haltAt_mem (code : ErrorCode) (word : Option Word) (a : Word) :
    (s.haltAt code word a).mem = s.mem := rfl
@[simp] theorem State.haltAt_v (code : ErrorCode) (word : Option Word) (a : Word) :
    (s.haltAt code word a).v = s.v := rfl
@[simp] theorem State.haltAt_pc (code : ErrorCode) (word : Option Word) (a : Word) :
    (s.haltAt code word a).pc = a := rfl
@[simp] theorem State.haltAt_idx (code : ErrorCode) (word : Option Word) (a : Word) :
    (s.haltAt code word a).idx = s.idx := rfl
@[simp] theorem State.haltAt_stack (code : ErrorCode) (word : Option Word) (a : Word) :
    (s.haltAt code word a).stack = s.stack := rfl
@[simp] theorem State.haltAt_sp (code : ErrorCode) (word : Option Word) (a : Word) :
    (s.haltAt code word a).sp = s.sp := rfl
@[simp] theorem State.haltAt_dt (code : ErrorCode) (word : Option Word) (a : Word) :
    (s.haltAt code word a).dt = s.dt := rfl
@[simp] theorem State.haltAt_st (code : ErrorCode) (word : Option Word) (a : Word) :
    (s.haltAt code word a).st = s.st := rfl
@[simp] theorem State.haltAt_beep (code : ErrorCode) (word : Option Word) (a : Word) :
    (s.haltAt code word a).beep = s.beep := rfl
@[simp] theorem State.haltAt_cyc (code : ErrorCode) (word : Option Word) (a : Word) :
    (s.haltAt code word a).cyc = s.cyc := rfl
@[simp] theorem State.haltAt_latch (code : ErrorCode) (word : Option Word) (a : Word) :
    (s.haltAt code word a).latch = s.latch := rfl
@[simp] theorem State.haltAt_fb (code : ErrorCode) (word : Option Word) (a : Word) :
    (s.haltAt code word a).fb = s.fb := rfl
@[simp] theorem State.haltAt_mode (code : ErrorCode) (word : Option Word) (a : Word) :
    (s.haltAt code word a).mode = s.mode := rfl
@[simp] theorem State.haltAt_halt (code : ErrorCode) (word : Option Word) (a : Word) :
    (s.haltAt code word a).halt = .halted code word a := rfl
@[simp] theorem State.haltAt_params (code : ErrorCode) (word : Option Word) (a : Word) :
    (s.haltAt code word a).params = s.params := rfl
@[simp] theorem State.haltAt_inputs (code : ErrorCode) (word : Option Word) (a : Word) :
    (s.haltAt code word a).inputs = s.inputs := rfl
@[simp] theorem State.haltAt_portLog (code : ErrorCode) (word : Option Word) (a : Word) :
    (s.haltAt code word a).portLog = s.portLog := rfl

/-! completeCycle: the frame bookkeeping. -/

@[simp] theorem State.completeCycle_mem : s.completeCycle.mem = s.mem := rfl
@[simp] theorem State.completeCycle_v : s.completeCycle.v = s.v := rfl
@[simp] theorem State.completeCycle_pc : s.completeCycle.pc = s.pc := rfl
@[simp] theorem State.completeCycle_idx : s.completeCycle.idx = s.idx := rfl
@[simp] theorem State.completeCycle_stack : s.completeCycle.stack = s.stack := rfl
@[simp] theorem State.completeCycle_sp : s.completeCycle.sp = s.sp := rfl
@[simp] theorem State.completeCycle_dt : s.completeCycle.dt = if s.endsFrame then countDown s.dt else s.dt := rfl
@[simp] theorem State.completeCycle_st : s.completeCycle.st = if s.endsFrame then countDown s.st else s.st := rfl
@[simp] theorem State.completeCycle_beep : s.completeCycle.beep = if s.endsFrame then s.beepLevel else s.beep := rfl
@[simp] theorem State.completeCycle_cyc : s.completeCycle.cyc = if s.endsFrame then 0 else s.cyc + 1 := rfl
@[simp] theorem State.completeCycle_latch : s.completeCycle.latch = s.latch := rfl
@[simp] theorem State.completeCycle_fb : s.completeCycle.fb = s.fb := rfl
@[simp] theorem State.completeCycle_mode : s.completeCycle.mode = s.mode := rfl
@[simp] theorem State.completeCycle_halt : s.completeCycle.halt = s.halt := rfl
@[simp] theorem State.completeCycle_params : s.completeCycle.params = s.params := rfl
@[simp] theorem State.completeCycle_inputs : s.completeCycle.inputs = s.inputs := rfl
@[simp] theorem State.completeCycle_portLog :
    s.completeCycle.portLog = if s.endsFrame then beepEvent s.beepLevel :: s.portLog else s.portLog := rfl

/-! The updates that are named compositions: their fields follow from the ones above. -/

@[simp] theorem State.skip_eq : s.skip = s.setPc (s.pc + 2) := rfl
@[simp] theorem State.rewind_eq : s.rewind = s.setPc (s.pc - 2) := rfl
@[simp] theorem State.advance_eq : s.advance = s.setPc (s.pc + 2) := rfl
@[simp] theorem State.instrAddr_eq : s.instrAddr = s.pc - 2 := rfl
@[simp] theorem State.raiseWord_eq (code : ErrorCode) (w : Word) :
    s.raiseWord code w = s.haltAt code (some w) (s.pc - 2) := rfl
@[simp] theorem State.fetchError_eq : s.fetchError = s.haltAt .addressError none s.pc := rfl
@[simp] theorem State.unsupported_eq (w : Word) :
    s.unsupported w = s.haltAt .unsupportedOpcode (some w) (s.pc - 2) := rfl
@[simp] theorem State.skipIf_true : s.skipIf true = s.skip := rfl
@[simp] theorem State.skipIf_false : s.skipIf false = s := rfl

end Updates

end Sys2Proof.Machine
end

