-- ==== Sys2Proof/Laws/Registers.lean ====
section
/-! SUPPORT. The register file: reads after writes, and what the flag-writing operations leave (rules R21, R22, R150). -/

namespace Sys2Proof.Machine

@[simp] theorem State.getV_setV_same (s : State) (x : Nibble) (b : Byte) : (s.setV x b).getV x = b := by
  simp [State.getV, State.setV]

theorem State.getV_setV_ne (s : State) {x k : Nibble} (b : Byte) (h : k ≠ x) :
    (s.setV x b).getV k = s.getV k := by
  have : x.toNat ≠ k.toNat := fun e => h (BitVec.eq_of_toNat_eq e.symm)
  simp [State.getV, State.setV, this]

theorem State.getV_setV (s : State) (x k : Nibble) (b : Byte) :
    (s.setV x b).getV k = if k = x then b else s.getV k := by
  split
  · subst k; simp
  · exact s.getV_setV_ne b ‹_›

/-- Two register files that read alike at every index are one. -/
theorem regs_ext {v w : Vector Byte 16} (h : ∀ k : Nibble, v[k.toNat]'k.isLt = w[k.toNat]'k.isLt) : v = w := by
  refine Vector.ext fun k hk => ?_
  simpa [Nat.mod_eq_of_lt hk] using h (BitVec.ofNat 4 k)

/-- A read sees the register file only. -/
theorem State.getV_congr {s t : State} (h : t.v = s.v) (k : Nibble) : t.getV k = s.getV k := by
  simp [State.getV, h]

/-- Rule R150: what every register reads after `write_rf`. -/
theorem State.getV_writeRF (s : State) (x k : Nibble) (r f : Byte) :
    (s.writeRF x r f).getV k =
      if k = vfIndex then (if x = vfIndex ∧ s.params.vfOrder = .resultLast then r else f)
      else if k = x then r else s.getV k := by
  unfold State.writeRF
  cases h : s.params.vfOrder <;> simp only [State.getV_setV]
  · simp
  · by_cases hk : k = vfIndex <;> by_cases hx : k = x <;> simp_all
    intro e; exact absurd e.symm hx

/-- Rules R152 to R154: what every register reads after a logical operation. -/
theorem State.getV_writeLogic (s : State) (x k : Nibble) (r : Byte) :
    (s.writeLogic x r).getV k =
      if s.quirks.logicVfReset then
        (if k = vfIndex then (if x = vfIndex ∧ s.params.vfOrder = .resultLast then r else 0)
         else if k = x then r else s.getV k)
      else if k = x then r else s.getV k := by
  unfold State.writeLogic
  split
  · exact s.getV_writeRF x k r 0
  · exact s.getV_setV x k r

/-- Rule R218: what every register reads after the flag of FX1E. -/
theorem State.getV_writeIndexFlag (s : State) (t : Nat) (k : Nibble) :
    (s.writeIndexFlag t).getV k =
      if k = vfIndex then
        (if t > 0xFFF then 1 else if s.params.fx1eNoOverflow = .clear then 0 else s.getV k)
      else s.getV k := by
  unfold State.writeIndexFlag
  by_cases h : t > 0xFFF <;> cases hp : s.params.fx1eNoOverflow <;> simp [h, State.getV_setV]

/-- `write_rf` writes registers only. -/
theorem State.writeRF_frame (s : State) (x : Nibble) (r f : Byte) :
    s.writeRF x r f = { s with v := (s.writeRF x r f).v } := by
  unfold State.writeRF; cases s.params.vfOrder <;> rfl

/-- The logical operations write registers only. -/
theorem State.writeLogic_frame (s : State) (x : Nibble) (r : Byte) :
    s.writeLogic x r = { s with v := (s.writeLogic x r).v } := by
  unfold State.writeLogic
  split
  · exact s.writeRF_frame x r 0
  · rfl

/-- The flag of FX1E is a register write. -/
theorem State.writeIndexFlag_frame (s : State) (t : Nat) :
    s.writeIndexFlag t = { s with v := (s.writeIndexFlag t).v } := by
  unfold State.writeIndexFlag
  split
  · rfl
  · cases s.params.fx1eNoOverflow <;> rfl

/-- The memory increment writes `I` only. -/
theorem State.applyMemInc_frame (s : State) (x : Nibble) :
    s.applyMemInc x = { s with idx := (s.applyMemInc x).idx } := by
  unfold State.applyMemInc; cases s.quirks.memInc <;> rfl

theorem fillRegs_getElem (bs : List Byte) (v : Vector Byte 16) (k j : Nat) (hj : j < 16) :
    (fillRegs v k bs)[j] = if h : k ≤ j ∧ j < k + bs.length then bs[j - k]'(by omega) else v[j] := by
  induction bs generalizing v k with
  | nil => simp [fillRegs]
  | cons b bs ih =>
    rw [fillRegs, ih]
    rcases Nat.lt_trichotomy j k with h | h | h
    · have h1 : ¬(k + 1 ≤ j ∧ j < k + 1 + bs.length) := by omega
      have h2 : ¬(k ≤ j ∧ j < k + (b :: bs).length) := by omega
      rw [dif_neg h1, dif_neg h2, Vector.getElem_setIfInBounds_ne _ (by omega)]
    · subst h
      have h1 : ¬(j + 1 ≤ j ∧ j < j + 1 + bs.length) := by omega
      have h2 : j ≤ j ∧ j < j + (b :: bs).length := by simp
      rw [dif_neg h1, dif_pos h2]
      simp
    · by_cases hh : j < k + 1 + bs.length
      · have h1 : k + 1 ≤ j ∧ j < k + 1 + bs.length := by omega
        have h2 : k ≤ j ∧ j < k + (b :: bs).length := by simp; omega
        have e : j - k = (j - (k + 1)) + 1 := by omega
        rw [dif_pos h1, dif_pos h2]
        simp [e]
      · have h1 : ¬(k + 1 ≤ j ∧ j < k + 1 + bs.length) := by omega
        have h2 : ¬(k ≤ j ∧ j < k + (b :: bs).length) := by simp; omega
        rw [dif_neg h1, dif_neg h2, Vector.getElem_setIfInBounds_ne _ (by omega)]

end Sys2Proof.Machine
end

