-- ==== Sys2Proof/Laws/Ops.lean ====
section
/-! SUPPORT. What each shared operation can do, once (rules R26, R34, R68, R69, R202, R213, R219, R243). -/

namespace Sys2Proof.Machine

/-! Stack (rule R26). -/

theorem State.push_of_lt (s : State) (a : Word) (h : s.sp.val < 16) :
    s.push a = .ok { s with stack := s.stack.set s.sp.val a h, sp := ⟨s.sp.val + 1, by omega⟩ } := by
  simp [State.push, h]

theorem State.push_full (s : State) (a : Word) (h : s.sp.val = 16) : s.push a = .error .stackOverflow := by
  simp [State.push, h]

/-- A push that succeeds had room, and writes the entry and the depth only. -/
theorem State.push_ok {s t : State} {a : Word} (h : s.push a = .ok t) :
    ∃ hs : s.sp.val < 16, t = { s with stack := s.stack.set s.sp.val a hs, sp := ⟨s.sp.val + 1, by omega⟩ } := by
  unfold State.push at h
  split at h
  · exact ⟨‹_›, (Except.ok.inj h).symm⟩
  · cases h

theorem State.push_error {s : State} {a : Word} {e : ErrorCode} (h : s.push a = .error e) :
    s.sp.val = 16 ∧ e = .stackOverflow := by
  unfold State.push at h
  split at h
  · cases h
  · cases h; exact ⟨by omega, rfl⟩

theorem State.pop_of_pos (s : State) (h : 0 < s.sp.val) :
    s.pop = .ok (s.stack[s.sp.val - 1]'(by omega), { s with sp := ⟨s.sp.val - 1, by omega⟩ }) := by
  simp [State.pop, h]

theorem State.pop_empty (s : State) (h : s.sp.val = 0) : s.pop = .error .stackUnderflow := by
  simp [State.pop, h]

/-- A pop that succeeds had an entry, gives the topmost one, and writes the depth only. -/
theorem State.pop_ok {s t : State} {a : Word} (h : s.pop = .ok (a, t)) :
    ∃ hs : 0 < s.sp.val, a = s.stack[s.sp.val - 1]'(by omega) ∧ t = { s with sp := ⟨s.sp.val - 1, by omega⟩ } := by
  unfold State.pop at h
  split at h
  · cases h; exact ⟨‹_›, rfl, rfl⟩
  · cases h

theorem State.pop_error {s : State} {e : ErrorCode} (h : s.pop = .error e) :
    s.sp.val = 0 ∧ e = .stackUnderflow := by
  unfold State.pop at h
  split at h
  · cases h
  · cases h; exact ⟨by omega, rfl⟩

/-! Memory through `I` (rules R67 to R69). -/

/-- Rule R68: in range means that the last byte lies at or below 0xFFF. -/
theorem outOfRange_eq_false {i : Word} {m : Nat} : outOfRange i m = false ↔ i.toNat + m ≤ memorySize ∨ m = 0 := by
  simp [outOfRange, memorySize]; omega

theorem outOfRange_eq_true {i : Word} {m : Nat} : outOfRange i m = true ↔ 0 < m ∧ memorySize < i.toNat + m := by
  simp [outOfRange, memorySize]; omega

/-- Rule R69: a byte of the range lies in 0x050–0x09F. -/
theorem meetsFont_eq_true {i : Word} {m : Nat} :
    meetsFont i m = true ↔ ∃ k, k < m ∧ 0x050 ≤ i.toNat + k ∧ i.toNat + k ≤ 0x09F := by
  simp only [meetsFont, Bool.and_eq_true, decide_eq_true_eq]
  simp only [fontBase, fontEnd]
  constructor
  · rintro ⟨⟨h1, h2⟩, h3⟩
    exact ⟨0x50 - i.toNat, by omega⟩
  · rintro ⟨k, h⟩; omega

/-- Rule R68: a load in range reads the bytes. -/
theorem State.loadAtI_of_inRange {s : State} {m : Nat} (h : outOfRange s.idx m = false) :
    s.loadAtI m = .ok (s.mem.readBytes s.idx.toNat m) := by
  simp [State.loadAtI, h]

theorem State.loadAtI_of_outOfRange {s : State} {m : Nat} (h : outOfRange s.idx m = true) :
    s.loadAtI m = .error .addressError := by
  simp [State.loadAtI, h]

/-- Rules R67 to R69: a store in range that the font policy allows. -/
theorem State.storeAtI_of_allowed {s : State} {bs : List Byte} (h : outOfRange s.idx bs.length = false)
    (hf : ¬(s.params.fontWritePolicy = .fault ∧ meetsFont s.idx bs.length = true)) :
    s.storeAtI bs = .ok { s with mem := s.mem.writeBytes s.idx.toNat bs } := by
  simp only [State.storeAtI, h, Bool.false_eq_true, if_false, if_neg hf]

theorem State.storeAtI_of_outOfRange {s : State} {bs : List Byte} (h : outOfRange s.idx bs.length = true) :
    s.storeAtI bs = .error .addressError := by
  simp [State.storeAtI, h]

theorem State.storeAtI_of_font {s : State} {bs : List Byte} (h : outOfRange s.idx bs.length = false)
    (hf : s.params.fontWritePolicy = .fault ∧ meetsFont s.idx bs.length = true) :
    s.storeAtI bs = .error .fontRegionWrite := by
  simp only [State.storeAtI, h, Bool.false_eq_true, if_false, if_pos hf]

theorem State.loadAtI_ok {s : State} {m : Nat} {bs : List Byte} (h : s.loadAtI m = .ok bs) :
    outOfRange s.idx m = false ∧ bs = s.mem.readBytes s.idx.toNat m := by
  unfold State.loadAtI at h
  split at h
  · cases h
  · exact ⟨by simpa using ‹¬outOfRange _ _ = true›, (Except.ok.inj h).symm⟩

theorem State.loadAtI_error {s : State} {m : Nat} {e : ErrorCode} (h : s.loadAtI m = .error e) :
    outOfRange s.idx m = true ∧ e = .addressError := by
  unfold State.loadAtI at h
  split at h
  · cases h; exact ⟨‹_›, rfl⟩
  · cases h

/-- A store that succeeds was in range, was allowed by the font policy, and writes memory only. -/
theorem State.storeAtI_ok {s t : State} {bs : List Byte} (h : s.storeAtI bs = .ok t) :
    outOfRange s.idx bs.length = false ∧
      ¬(s.params.fontWritePolicy = .fault ∧ meetsFont s.idx bs.length = true) ∧
      t = { s with mem := s.mem.writeBytes s.idx.toNat bs } := by
  unfold State.storeAtI at h
  split at h
  · cases h
  · split at h
    · cases h
    · exact ⟨by simpa using ‹¬outOfRange _ _ = true›, ‹_›, (Except.ok.inj h).symm⟩

theorem State.storeAtI_error {s : State} {bs : List Byte} {e : ErrorCode} (h : s.storeAtI bs = .error e) :
    e = .addressError ∨ e = .fontRegionWrite := by
  unfold State.storeAtI at h
  split at h
  · cases h; exact .inl rfl
  · split at h
    · cases h; exact .inr rfl
    · cases h

/-- A successful store keeps the canonical form of memory. -/
theorem State.storeAtI_wf {s t : State} {bs : List Byte} (h : s.storeAtI bs = .ok t) (hm : s.mem.wf = true) :
    t.mem.wf = true := by
  obtain ⟨hr, -, rfl⟩ := State.storeAtI_ok h
  rcases outOfRange_eq_false.1 hr with h' | h'
  · exact Memory.wf_writeBytes bs hm h'
  · rw [List.length_eq_zero_iff.1 h']; exact hm

/-! Free inputs (rules R34, R35, R213; log entry 2). -/

theorem State.keys_of_cons {s : State} {k : KeySet} {rest : List KeySet} (h : s.inputs.keySamples = k :: rest) :
    s.keys = k := by simp [State.keys, h]

theorem State.keys_of_nil {s : State} (h : s.inputs.keySamples = []) : s.keys = Config.freeKeys s.inputs.draws := by
  simp [State.keys, h]

theorem State.rand_of_cons {s : State} {b : Byte} {rest : List Byte} (h : s.inputs.randBytes = b :: rest) :
    s.rand = b := by simp [State.rand, h]

theorem State.rand_of_nil {s : State} (h : s.inputs.randBytes = []) : s.rand = Config.freeRand s.inputs.draws := by
  simp [State.rand, h]

/-- Taking the key sample does not touch the choices that are named. -/
theorem State.choice_keysTaken_of_cons {s : State} {k : KeyId} {rest : List KeyId}
    (h : s.inputs.choices = k :: rest) : s.keysTaken.choice = k := by simp [State.choice, State.keysTaken, h]

/-- Rule R213: a proposed key that is held is the one chosen. -/
theorem chooseKey_of_held {keys : KeySet} {p : KeyId} (h : keyHeld keys p.toNat = true) : chooseKey p keys = p := by
  simp [chooseKey, h]

/-! Checked operands (rules R202, R219). -/

/-- A key test that answers has taken the sample, and nothing else changed. -/
theorem State.keyTest_ok {s t : State} {v : Byte} {b : Bool} (h : s.keyTest v = .ok (b, t)) :
    t = s.keysTaken ∧ b = (decide (v.toNat ≤ 15) && keyHeld s.keys v.toNat) ∧
      (v.toNat ≤ 15 ∨ s.params.keyIndexPolicy = .notHeld) := by
  unfold State.keyTest at h
  split at h
  · cases h; simp_all
  · split at h
    · cases h
    · cases h; simp_all

theorem State.keyTest_error {s : State} {v : Byte} {e : ErrorCode} (h : s.keyTest v = .error e) :
    e = .keyIndexRange ∧ 15 < v.toNat ∧ s.params.keyIndexPolicy = .fault := by
  unfold State.keyTest at h
  split at h
  · cases h
  · split at h
    · cases h; exact ⟨rfl, by omega, ‹_›⟩
    · cases h

theorem State.glyphOf_error {s : State} {v : Byte} {e : ErrorCode} (h : s.glyphOf v = .error e) :
    e = .glyphDigitRange ∧ 15 < v.toNat ∧ s.params.glyphDigitPolicy = .fault := by
  unfold State.glyphOf at h
  split at h
  · cases h
  · split at h
    · cases h; exact ⟨rfl, by omega, ‹_›⟩
    · cases h
    · cases h

/-! `choose` (rule R213). -/

theorem keyHeld_lowestFrom {keys : KeySet} : ∀ (n k : Nat), k + n ≤ 16 →
    (∃ j, k ≤ j ∧ j < k + n ∧ keyHeld keys j = true) → keyHeld keys (lowestFrom keys k n).toNat = true
  | 0, k, _, ⟨j, h1, h2, _⟩ => by omega
  | n + 1, k, hk, ⟨j, h1, h2, h3⟩ => by
    rw [lowestFrom]
    split
    · have : k % 16 = k := Nat.mod_eq_of_lt (by omega)
      simpa [this] using ‹keyHeld keys k = true›
    · refine keyHeld_lowestFrom n (k + 1) (by omega) ⟨j, ?_, by omega, h3⟩
      rcases Nat.lt_or_ge k j with h | h
      · exact h
      · have : j = k := by omega
        subst this; contradiction

/-- A sample that is not empty holds a key. -/
theorem keyHeld_of_ne_zero {keys : KeySet} (h : keys ≠ 0) : ∃ j, j < 16 ∧ keyHeld keys j = true := by
  by_contra hc
  refine h (BitVec.eq_of_getLsbD_eq fun j hj => ?_)
  by_contra hb
  exact hc ⟨j, hj, by simpa [keyHeld] using hb⟩

/-- An id is a key of the sample it was read from at most at 15. -/
theorem keyHeld_lt {keys : KeySet} {j : Nat} (h : keyHeld keys j = true) : j < 16 := by
  by_contra hc
  rw [keyHeld, BitVec.getLsbD_of_ge _ _ (by omega)] at h
  cases h

/-! Outcomes. -/

/-- An error's state: the address of the instruction in `PC` and in `HALT`. -/
@[simp] theorem State.raise_eq (s : State) (code : ErrorCode) (i : Instr) :
    s.raise code i = .next (s.haltAt code (some (encode i)) (s.pc - 2)) := rfl

theorem State.orRaise_ok (s t : State) (i : Instr) : s.orRaise i (.ok t) = .next t := rfl

theorem State.orRaise_error (s : State) (i : Instr) (e : ErrorCode) : s.orRaise i (.error e) = s.raise e i := rfl

/-- The frame bookkeeping in the form of rule R108. -/
theorem completeCycle_eq (s : State) :
    s.completeCycle = if s.cyc + 1 = s.params.ipf then { s.tick with cyc := 0 } else { s with cyc := s.cyc + 1 } := by
  by_cases h : s.cyc + 1 = s.params.ipf <;> simp [State.completeCycle, State.endsFrame, State.tick, h]

/-- The display shadow's bits beyond column 63 are no pixels. -/
theorem Framebuffer.pixel_of_ge (fb : Framebuffer) (r : Fin 32) {c : Nat} (h : 64 ≤ c) : fb.pixel r c = false := by
  simp [Framebuffer.pixel, BitVec.getMsbD, Nat.not_lt.2 h]

/-- Two display shadows with the same pixels are one. -/
theorem Framebuffer.ext_pixel {a b : Framebuffer} (h : ∀ r c, c < 64 → a.pixel r c = b.pixel r c) : a = b := by
  refine Vector.ext fun r hr => BitVec.eq_of_getMsbD_eq fun c hc => ?_
  exact h ⟨r, hr⟩ c hc

end Sys2Proof.Machine
end

