-- ==== Sys2Proof/Laws/Draw.lean ====
section
/-! SUPPORT. The sprite draw by rows and by pixels (rules R190 to R195). -/

namespace Sys2Proof.Machine

/-- Rules R191, R193: column `c` of a sprite row at `x0` shows bit `7 - (c - x0)` of the byte, and nothing outside its
eight columns. -/
theorem getMsbD_spriteRow (x0 : Nat) (b : Byte) (c : Nat) (hc : c < 64) :
    (spriteRow x0 b).getMsbD c = (decide (x0 ≤ c ∧ c < x0 + 8) && b.getLsbD (7 - (c - x0))) := by
  have e : 64 - 1 - c = 63 - c := by omega
  rw [spriteRow, BitVec.getMsbD, e, decide_eq_true hc, Bool.true_and, BitVec.getLsbD_ushiftRight,
    BitVec.getLsbD_shiftLeft]
  by_cases h : x0 ≤ c ∧ c < x0 + 8
  · have h1 : x0 + (63 - c) < 64 := by omega
    have h2 : ¬ x0 + (63 - c) < 56 := by omega
    have h3 : x0 + (63 - c) - 56 = 7 - (c - x0) := by omega
    have h4 : 7 - (c - x0) < 64 := by omega
    simp [h, h1, h2, h3, h4]
  · by_cases h1 : x0 + (63 - c) < 64
    · have h2 : x0 + (63 - c) < 56 := by omega
      simp [h, h2]
    · simp [h, h1]

/-- The bits that a sprite toggles in display row `r`, when its first row is drawn at row `y`. -/
def maskRow (x0 y : Nat) (bytes : List Byte) (r : Nat) : BitVec 64 :=
  if h : y ≤ r ∧ r < y + bytes.length then spriteRow x0 (bytes[r - y]'(by omega)) else 0

theorem maskRow_nil (x0 y r : Nat) : maskRow x0 y [] r = 0 := by
  rw [maskRow, dif_neg (by simp)]

theorem maskRow_cons_self (x0 y : Nat) (b : Byte) (bs : List Byte) :
    maskRow x0 y (b :: bs) y = spriteRow x0 b := by simp [maskRow]

theorem maskRow_of_lt (x0 : Nat) {y r : Nat} (bytes : List Byte) (h : r < y) : maskRow x0 y bytes r = 0 := by
  simp [maskRow, Nat.not_le.2 h]

theorem maskRow_cons_of_gt (x0 : Nat) {y r : Nat} (b : Byte) (bs : List Byte) (h : y < r) :
    maskRow x0 y (b :: bs) r = maskRow x0 (y + 1) bs r := by
  have e : r - y = (r - (y + 1)) + 1 := by omega
  by_cases hr : r < y + 1 + bs.length
  · have h1 : y ≤ r ∧ r < y + (b :: bs).length := by simp; omega
    have h2 : y + 1 ≤ r ∧ r < y + 1 + bs.length := by omega
    rw [maskRow, maskRow, dif_pos h1, dif_pos h2]
    simp [e]
  · have h1 : ¬(y ≤ r ∧ r < y + (b :: bs).length) := by simp; omega
    have h2 : ¬(y + 1 ≤ r ∧ r < y + 1 + bs.length) := by omega
    rw [maskRow, maskRow, dif_neg h1, dif_neg h2]

/-- Rule R190: a draw XORs the sprite's row into each display row. -/
theorem drawRows_getElem (x0 : Nat) : ∀ (bytes : List Byte) (y : Nat) (fb : Framebuffer) (coll : Bool) (r : Nat)
    (hr : r < 32), (drawRows x0 y fb coll bytes).1[r] = fb[r] ^^^ maskRow x0 y bytes r
  | [], y, fb, coll, r, hr => by simp [drawRows, maskRow_nil]
  | b :: bs, y, fb, coll, r, hr => by
    rw [drawRows]
    split
    · rw [drawRows_getElem x0 bs (y + 1) _ _ r hr]
      rcases Nat.lt_trichotomy r y with h | h | h
      · rw [maskRow_of_lt x0 _ h, maskRow_of_lt x0 _ (by omega), Vector.getElem_set_ne _ _ (by omega)]
      · subst h
        rw [maskRow_cons_self, maskRow_of_lt x0 _ (by omega)]
        simp
      · rw [maskRow_cons_of_gt x0 b bs h, Vector.getElem_set_ne _ _ (by omega)]
    · rw [maskRow_of_lt x0 _ (by omega)]
      simp

/-- Rule R190: the collision flag says that some display row and the sprite's row in it share a set bit. -/
theorem drawRows_coll (x0 : Nat) : ∀ (bytes : List Byte) (y : Nat) (fb : Framebuffer) (coll : Bool),
    (drawRows x0 y fb coll bytes).2 = true ↔
      coll = true ∨ ∃ (r : Nat) (hr : r < 32), fb[r] &&& maskRow x0 y bytes r ≠ 0
  | [], y, fb, coll => by
    simp [drawRows, maskRow_nil]
  | b :: bs, y, fb, coll => by
    rw [drawRows]
    split
    · rename_i hy
      rw [drawRows_coll x0 bs (y + 1)]
      simp only [Bool.or_eq_true, bne_iff_ne, or_assoc]
      refine or_congr_right ⟨?_, ?_⟩
      · rintro (h | ⟨r, hr, h⟩)
        · exact ⟨y, hy, by rwa [maskRow_cons_self]⟩
        · rcases Nat.lt_or_ge y r with hlt | hge
          · refine ⟨r, hr, ?_⟩
            rw [Vector.getElem_set_ne _ _ (by omega)] at h
            rwa [maskRow_cons_of_gt x0 b bs hlt]
          · rw [maskRow_of_lt x0 _ (by omega)] at h
            simp at h
      · rintro ⟨r, hr, h⟩
        rcases Nat.lt_trichotomy r y with hlt | heq | hgt
        · rw [maskRow_of_lt x0 _ hlt] at h
          simp at h
        · subst heq
          rw [maskRow_cons_self] at h
          exact .inl h
        · refine .inr ⟨r, hr, ?_⟩
          rw [maskRow_cons_of_gt x0 b bs hgt] at h
          rwa [Vector.getElem_set_ne _ _ (by omega)]
    · rename_i hy
      refine ⟨.inl, ?_⟩
      rintro (h | ⟨r, hr, h⟩)
      · exact h
      · rw [maskRow_of_lt x0 _ (by omega)] at h
        simp at h

/-- Rule R195: the mask of a draw is the set of cells it toggles. -/
theorem spriteMask_getElem (x0 y : Nat) (bytes : List Byte) (r : Nat) (hr : r < 32) :
    (spriteMask x0 y bytes)[r] = maskRow x0 y bytes r := by
  rw [spriteMask, drawRows_getElem]
  simp [Framebuffer.blank]

/-- Rules R190, R193: the cells that a sprite toggles, one by one. -/
theorem getMsbD_maskRow (x0 y : Nat) (bytes : List Byte) (r c : Nat) (hc : c < 64) :
    (maskRow x0 y bytes r).getMsbD c =
      (decide (y ≤ r ∧ r < y + bytes.length ∧ x0 ≤ c ∧ c < x0 + 8) && (bytes.getD (r - y) 0).getLsbD (7 - (c - x0))) := by
  unfold maskRow
  split
  · rename_i h
    have hb : r - y < bytes.length := by omega
    rw [getMsbD_spriteRow _ _ _ hc, List.getD_eq_getElem _ _ hb]
    simp [h.1, h.2]
  · rename_i h
    have : ¬(y ≤ r ∧ r < y + bytes.length ∧ x0 ≤ c ∧ c < x0 + 8) := by omega
    simp [this]

/-- Rule R194: a sprite of no rows toggles nothing and collides with nothing. -/
theorem drawRows_nil (x0 y : Nat) (fb : Framebuffer) : drawRows x0 y fb false [] = (fb, false) := rfl

end Sys2Proof.Machine
end

