-- ==== Sys2Proof/Laws/Flags.lean ====
section
/-! SUPPORT. The results and flags of the arithmetic as numbers (rules R12, R83, R155 to R160, R219). -/

namespace Sys2Proof.Machine

/-- Rule R83: `zext_16(nnn)` keeps the number. -/
theorem toNat_addrOfImm (a : Addr12) : (addrOfImm a).toNat = a.toNat := by
  simp [addrOfImm]; omega

theorem toNat_addResult (a b : Byte) : (addResult a b).toNat = (a.toNat + b.toNat) % 256 := by
  simp [addResult]

/-- Rule R156: a borrow wraps via +256. -/
theorem toNat_subResult (a b : Byte) : (subResult a b).toNat = (a.toNat + 256 - b.toNat) % 256 := by
  simp only [subResult, BitVec.toNat_ofInt]
  omega

theorem toNat_flagByte (b : Bool) : (flagByte b).toNat = if b then 1 else 0 := by cases b <;> rfl

theorem toNat_shrResult (v : Byte) : (shrResult v).toNat = v.toNat / 2 := by
  simp [shrResult, Nat.shiftRight_eq_div_pow]

theorem toNat_shlResult (v : Byte) : (shlResult v).toNat = v.toNat * 2 % 256 := by
  simp [shlResult, Nat.shiftLeft_eq]

theorem toNat_shrOut (v : Byte) : (shrOut v).toNat = v.toNat % 2 := by
  simp [shrOut]

theorem toNat_shlOut (v : Byte) : (shlOut v).toNat = v.toNat / 128 := by
  simp [shlOut, Nat.shiftRight_eq_div_pow]

/-- Rule R219: the low nibble as a number. -/
theorem toNat_lowNibble (v : Byte) : (v &&& 0x0F#8).toNat = v.toNat % 16 := by
  rw [BitVec.toNat_and]; exact Nat.and_two_pow_sub_one_eq_mod v.toNat 4

end Sys2Proof.Machine
end

