-- ==== Sys2Proof/Laws/Step.lean ====
section
/-! SUPPORT. What an instruction and a step can do, said once (rules R104 to R108, R240 to R243). -/

namespace Sys2Proof.Machine

/-- Rule R240: the errors that an instruction can raise. -/
def raisedBy : Instr → List ErrorCode
  | .ret => [.stackUnderflow]
  | .call _ => [.stackOverflow]
  | .drw _ _ _ | .loadRegs _ => [.addressError]
  | .skp _ | .sknp _ => [.keyIndexRange]
  | .ldF _ => [.glyphDigitRange]
  | .ldB _ | .storeRegs _ => [.addressError, .fontRegionWrite]
  | .cls | .jp _ | .seImm _ _ | .sneImm _ _ | .seReg _ _ _ | .ldImm _ _ | .addImm _ _ | .ldReg _ _ | .orReg _ _
  | .andReg _ _ | .xorReg _ _ | .addReg _ _ | .subReg _ _ | .shrReg _ _ | .subnReg _ _ | .shlReg _ _
  | .sneReg _ _ _ | .ldI _ | .jpV0 _ | .rnd _ _ | .ldVxDt _ | .ldVxK _ | .ldDtVx _ | .ldStVx _ | .addI _ => []

/-- What a completing instruction leaves alone whatever it is (rules R29, R32, R33, R36, R42). -/
structure Completes (s t : State) : Prop where
  halt   : t.halt = s.halt
  mode   : t.mode = s.mode
  params : t.params = s.params
  cyc    : t.cyc = s.cyc
  beep   : t.beep = s.beep

/-- An instruction's outcome: it completes, or it raises one of its errors from the state it was given. -/
inductive Answers (i : Instr) (s : State) : Result → Prop where
  | completes {t : State} (h : Completes s t) : Answers i s (.next t)
  | raises {code : ErrorCode} (h : code ∈ raisedBy i) : Answers i s (.next (s.raiseWord code (encode i)))

section
variable (s : State)

theorem completes_rfl : Completes s s := ⟨rfl, rfl, rfl, rfl, rfl⟩

theorem completes_skipIf {s t : State} (h : Completes s t) (c : Bool) : Completes s (t.skipIf c) := by
  cases c
  · exact h
  · exact ⟨h.halt, h.mode, h.params, h.cyc, h.beep⟩

theorem completes_writeRF (x : Nibble) (r f : Byte) : Completes s (s.writeRF x r f) := by
  rw [s.writeRF_frame]; exact ⟨rfl, rfl, rfl, rfl, rfl⟩

theorem completes_writeLogic (x : Nibble) (r : Byte) : Completes s (s.writeLogic x r) := by
  rw [s.writeLogic_frame]; exact ⟨rfl, rfl, rfl, rfl, rfl⟩

theorem completes_memInc {s t : State} (h : Completes s t) (x : Nibble) : Completes s (t.applyMemInc x) := by
  rw [t.applyMemInc_frame]; exact ⟨h.halt, h.mode, h.params, h.cyc, h.beep⟩

/-- Rule R104: every instruction answers a next state, completed or halted by an error of its own. -/
theorem exec_answers (i : Instr) : Answers i s (exec i s) := by
  cases i
  case ret =>
    simp only [exec, execRet]
    split
    · obtain ⟨_, _, rfl⟩ := State.pop_ok ‹_›
      exact .completes ⟨rfl, rfl, rfl, rfl, rfl⟩
    · obtain ⟨_, rfl⟩ := State.pop_error ‹_›
      exact .raises (by decide)
  case call nnn =>
    simp only [exec, execCall]
    split
    · obtain ⟨_, rfl⟩ := State.push_ok ‹_›
      exact .completes ⟨rfl, rfl, rfl, rfl, rfl⟩
    · obtain ⟨_, rfl⟩ := State.push_error ‹_›
      exact .raises (by simp [raisedBy])
  case drw x y n =>
    simp only [exec, execDrw]
    split
    · exact .completes ⟨rfl, rfl, rfl, rfl, rfl⟩
    · obtain ⟨_, rfl⟩ := State.loadAtI_error ‹_›
      exact .raises (by simp [raisedBy])
  case skp x =>
    simp only [exec, execSkp]
    split
    · obtain ⟨rfl, _⟩ := State.keyTest_ok ‹_›
      exact .completes (completes_skipIf (s := s) (t := s.keysTaken) ⟨rfl, rfl, rfl, rfl, rfl⟩ _)
    · obtain ⟨rfl, _⟩ := State.keyTest_error ‹_›
      exact .raises (by simp [raisedBy])
  case sknp x =>
    simp only [exec, execSknp]
    split
    · obtain ⟨rfl, _⟩ := State.keyTest_ok ‹_›
      exact .completes (completes_skipIf (s := s) (t := s.keysTaken) ⟨rfl, rfl, rfl, rfl, rfl⟩ _)
    · obtain ⟨rfl, _⟩ := State.keyTest_error ‹_›
      exact .raises (by simp [raisedBy])
  case ldVxK x =>
    refine .completes ?_
    unfold State.keyWait
    split <;> split <;> exact ⟨rfl, rfl, rfl, rfl, rfl⟩
  case addI x =>
    simp only [exec, execAddI]
    rw [State.writeIndexFlag_frame]
    exact .completes ⟨rfl, rfl, rfl, rfl, rfl⟩
  case ldF x =>
    simp only [exec, execLdF]
    split
    · exact .completes ⟨rfl, rfl, rfl, rfl, rfl⟩
    · obtain ⟨rfl, _⟩ := State.glyphOf_error ‹_›
      exact .raises (by simp [raisedBy])
  case ldB x =>
    simp only [exec, execLdB]
    cases h : s.storeAtI (decimalDigits (s.getV x)) with
    | ok t => obtain ⟨_, _, rfl⟩ := State.storeAtI_ok h; exact .completes ⟨rfl, rfl, rfl, rfl, rfl⟩
    | error e => exact .raises (by rcases State.storeAtI_error h with rfl | rfl <;> simp [raisedBy])
  case storeRegs x =>
    simp only [exec, execStoreRegs]
    split
    · obtain ⟨_, _, rfl⟩ := State.storeAtI_ok ‹_›
      refine .completes (completes_memInc ?_ x)
      exact ⟨rfl, rfl, rfl, rfl, rfl⟩
    · exact .raises (by rcases State.storeAtI_error ‹_› with rfl | rfl <;> simp [raisedBy])
  case loadRegs x =>
    simp only [exec, execLoadRegs]
    split
    · refine .completes (completes_memInc ?_ x)
      exact ⟨rfl, rfl, rfl, rfl, rfl⟩
    · obtain ⟨_, rfl⟩ := State.loadAtI_error ‹_›
      exact .raises (by simp [raisedBy])
  case seImm x nn => exact .completes (completes_skipIf (completes_rfl s) _)
  case sneImm x nn => exact .completes (completes_skipIf (completes_rfl s) _)
  case seReg x y n => exact .completes (completes_skipIf (completes_rfl s) _)
  case sneReg x y n => exact .completes (completes_skipIf (completes_rfl s) _)
  case orReg x y => exact .completes (completes_writeLogic s _ _)
  case andReg x y => exact .completes (completes_writeLogic s _ _)
  case xorReg x y => exact .completes (completes_writeLogic s _ _)
  case addReg x y => exact .completes (completes_writeRF s _ _ _)
  case subReg x y => exact .completes (completes_writeRF s _ _ _)
  case shrReg x y => exact .completes (completes_writeRF s _ _ _)
  case subnReg x y => exact .completes (completes_writeRF s _ _ _)
  case shlReg x y => exact .completes (completes_writeRF s _ _ _)
  all_goals exact .completes ⟨rfl, rfl, rfl, rfl, rfl⟩

end

/-- How a step of a running engine ends. -/
inductive StepCase (s : State) : State → Prop where
  /-- Rule R101: the fetch error. -/
  | fetchError (h : 4094 < s.pc.toNat) : StepCase s (s.haltAt .addressError none s.pc)
  /-- Rule R96: the word names no instruction. -/
  | unsupported {r : Reject} (hp : s.pc.toNat ≤ 4094) (hd : decodeWord (s.mem.readWord s.pc.toNat) = .error r) :
      StepCase s (s.advance.raiseWord .unsupportedOpcode (s.mem.readWord s.pc.toNat))
  /-- Rule R105: the instruction raises an error. -/
  | raised {i : Instr} {code : ErrorCode} (hp : s.pc.toNat ≤ 4094)
      (hd : decodeWord (s.mem.readWord s.pc.toNat) = .ok i) (hc : code ∈ raisedBy i) :
      StepCase s (s.advance.raiseWord code (encode i))
  /-- Rules R106, R108: the instruction completes, and the frame bookkeeping follows. -/
  | completed {i : Instr} {t : State} (hp : s.pc.toNat ≤ 4094)
      (hd : decodeWord (s.mem.readWord s.pc.toNat) = .ok i) (he : exec i s.advance = .next t)
      (hc : Completes s.advance t) : StepCase s t.completeCycle

/-- Rule R101: the fetched word. -/
theorem State.fetchWord_of_le {s : State} (h : s.pc.toNat ≤ 4094) :
    s.fetchWord = some (s.mem.readWord s.pc.toNat) := by
  rw [State.fetchWord, if_neg (by omega)]

theorem State.fetchWord_of_gt {s : State} (h : 4094 < s.pc.toNat) : s.fetchWord = none := by
  rw [State.fetchWord, if_pos h]

theorem State.endStep_running {t : State} (h : t.halt = .running) : t.endStep = t.completeCycle := by
  rw [State.endStep, h]

theorem State.endStep_halted {t : State} {c : ErrorCode} {w : Option Word} {a : Word} (h : t.halt = .halted c w a) :
    t.endStep = t := by
  rw [State.endStep, h]

/-- Rule R100: a halted engine has no step. -/
theorem step_halted {s : State} {c : ErrorCode} {w : Option Word} {a : Word} (h : s.halt = .halted c w a) :
    step s = .fault .engineHalted := by
  rw [step, h]

/-- A step runs the decoded instruction on the advanced state. -/
theorem step_decoded {s : State} {i : Instr} (hr : s.halt = .running) (hp : s.pc.toNat ≤ 4094)
    (hd : decodeWord (s.mem.readWord s.pc.toNat) = .ok i) : step s = finishStep (exec i s.advance) := by
  simp only [step, hr, State.fetchWord_of_le hp, hd]

/-- Rule R107: what a step of a running engine does, in one of four cases. -/
theorem step_cases {s : State} (hr : s.halt = .running) : ∃ t, step s = .next t ∧ StepCase s t := by
  rcases Nat.lt_or_ge 4094 s.pc.toNat with hp | hp
  · exact ⟨_, by simp only [step, hr, State.fetchWord_of_gt hp]; rfl, .fetchError hp⟩
  · cases hd : decodeWord (s.mem.readWord s.pc.toNat) with
    | error r => exact ⟨_, by simp only [step, hr, State.fetchWord_of_le hp, hd]; rfl, .unsupported hp hd⟩
    | ok i =>
      have hs := step_decoded hr hp hd
      generalize ho : exec i s.advance = o at hs
      have ha := exec_answers s.advance i
      rw [ho] at ha
      cases ha with
      | completes h =>
        refine ⟨_, hs, ?_⟩
        rw [State.endStep_running (by rw [h.halt]; exact hr)]
        exact .completed hp hd ho h
      | raises h =>
        refine ⟨_, hs, ?_⟩
        rw [State.endStep_halted (t := State.raiseWord _ _ _) rfl]
        exact .raised hp hd h

/-- A step that answers comes from a running engine, in one of the four cases. -/
theorem step_next {s t : State} (h : step s = .next t) : s.halt = .running ∧ StepCase s t := by
  cases hr : s.halt with
  | halted c w a => rw [step_halted hr] at h; cases h
  | running =>
    obtain ⟨u, hu, hc⟩ := step_cases hr
    rw [h] at hu
    cases hu
    exact ⟨rfl, hc⟩

end Sys2Proof.Machine
end

