-- ==== Sys2Proof/Laws/Keys.lean ====
section
/-! SUPPORT. The key wait, one lemma per case (rules R212, R213, R215). -/

namespace Sys2Proof.Machine

/-- Rule R213: `choose` takes a member of a sample that is not empty. -/
theorem keyHeld_chooseKey {keys : KeySet} (p : KeyId) (h : keys ≠ 0) :
    keyHeld keys (chooseKey p keys).toNat = true := by
  unfold chooseKey
  split
  · assumption
  · obtain ⟨j, hj, hh⟩ := keyHeld_of_ne_zero h
    exact keyHeld_lowestFrom 16 0 (by omega) ⟨j, by omega, by omega, hh⟩

/-- The key wait writes registers, `PC`, the latch and the inputs only. -/
theorem State.keyWait_frame (s : State) (x : Nibble) :
    s.keyWait x = { s with v := (s.keyWait x).v, pc := (s.keyWait x).pc, latch := (s.keyWait x).latch,
                           inputs := (s.keyWait x).inputs } := by
  unfold State.keyWait
  split <;> split <;> rfl

/-- Case 1, no key: rewind. -/
theorem exec_keyWait_idle {s : State} (x : Nibble) (hl : s.latch = none) (hk : s.keys = 0) :
    exec (.ldVxK x) s = .next s.keysTaken.rewind := by
  simp only [exec, execLdVxK, State.keyWait, hl, hk, if_true]

/-- Case 1, a key: latch it and rewind. -/
theorem exec_keyWait_latch {s : State} (x : Nibble) (hl : s.latch = none) (hk : s.keys ≠ 0) :
    exec (.ldVxK x) s =
      .next ((s.keysTaken.choiceTaken.setLatch (some (chooseKey s.keysTaken.choice s.keys))).rewind) := by
  simp only [exec, execLdVxK, State.keyWait, hl, if_neg hk]

/-- Case 2: the latched key is still held, rewind. -/
theorem exec_keyWait_held {s : State} (x : Nibble) {k : KeyId} (hl : s.latch = some k)
    (hk : keyHeld s.keys k.toNat = true) : exec (.ldVxK x) s = .next s.keysTaken.rewind := by
  simp only [exec, execLdVxK, State.keyWait, hl, if_pos hk]

/-- Case 3: the latched key is released, complete. -/
theorem exec_keyWait_release {s : State} (x : Nibble) {k : KeyId} (hl : s.latch = some k)
    (hk : keyHeld s.keys k.toNat = false) :
    exec (.ldVxK x) s = .next ((s.keysTaken.setV x (k.zeroExtend 8)).setLatch none) := by
  simp only [exec, execLdVxK, State.keyWait, hl, hk, Bool.false_eq_true, if_false]

end Sys2Proof.Machine
end

