-- ==== Sys2Proof/Laws/PerInstr.lean ====
section
/-! SUPPORT. Statements for all instructions, one lemma per constructor. OperandsInRange: the operands lie in the
ranges of rule R83. EncodesOwnRow: the encoder's word selects the instruction's own row of the opcode map (rule R92). -/

namespace Sys2Proof

/-- Rule R92: the row of the opcode map that an instruction stands for. -/
def Instr.row : Instr → OpcodeRow
  | .cls => ⟨0xFFFF, 0x00E0⟩
  | .ret => ⟨0xFFFF, 0x00EE⟩
  | .jp _ => ⟨0xF000, 0x1000⟩
  | .call _ => ⟨0xF000, 0x2000⟩
  | .seImm _ _ => ⟨0xF000, 0x3000⟩
  | .sneImm _ _ => ⟨0xF000, 0x4000⟩
  | .seReg _ _ _ => ⟨0xF000, 0x5000⟩
  | .ldImm _ _ => ⟨0xF000, 0x6000⟩
  | .addImm _ _ => ⟨0xF000, 0x7000⟩
  | .ldReg _ _ => ⟨0xF00F, 0x8000⟩
  | .orReg _ _ => ⟨0xF00F, 0x8001⟩
  | .andReg _ _ => ⟨0xF00F, 0x8002⟩
  | .xorReg _ _ => ⟨0xF00F, 0x8003⟩
  | .addReg _ _ => ⟨0xF00F, 0x8004⟩
  | .subReg _ _ => ⟨0xF00F, 0x8005⟩
  | .shrReg _ _ => ⟨0xF00F, 0x8006⟩
  | .subnReg _ _ => ⟨0xF00F, 0x8007⟩
  | .shlReg _ _ => ⟨0xF00F, 0x800E⟩
  | .sneReg _ _ _ => ⟨0xF000, 0x9000⟩
  | .ldI _ => ⟨0xF000, 0xA000⟩
  | .jpV0 _ => ⟨0xF000, 0xB000⟩
  | .rnd _ _ => ⟨0xF000, 0xC000⟩
  | .drw _ _ _ => ⟨0xF000, 0xD000⟩
  | .skp _ => ⟨0xF0FF, 0xE09E⟩
  | .sknp _ => ⟨0xF0FF, 0xE0A1⟩
  | .ldVxDt _ => ⟨0xF0FF, 0xF007⟩
  | .ldVxK _ => ⟨0xF0FF, 0xF00A⟩
  | .ldDtVx _ => ⟨0xF0FF, 0xF015⟩
  | .ldStVx _ => ⟨0xF0FF, 0xF018⟩
  | .addI _ => ⟨0xF0FF, 0xF01E⟩
  | .ldF _ => ⟨0xF0FF, 0xF029⟩
  | .ldB _ => ⟨0xF0FF, 0xF033⟩
  | .storeRegs _ => ⟨0xF0FF, 0xF055⟩
  | .loadRegs _ => ⟨0xF0FF, 0xF065⟩

/-- Masking a concatenation masks its parts. -/
theorem append_and {m n : Nat} (a c : BitVec m) (b d : BitVec n) : (a ++ b) &&& (c ++ d) = (a &&& c) ++ (b &&& d) := by
  refine BitVec.eq_of_getLsbD_eq fun i hi => ?_
  simp only [BitVec.getLsbD_and, BitVec.getLsbD_append]
  split <;> rfl

theorem nibble_and_mask (x : Nibble) : x &&& 0xF = x := BitVec.and_allOnes
theorem byte_and_mask (b : Byte) : b &&& 0xFF = b := BitVec.and_allOnes

/-- A mask of the family alone clears everything else. -/
theorem packNNN_family (f : Nibble) (a : Addr12) : packNNN f a &&& 0xF000 = packNNN f 0 := by
  rw [show (0xF000 : Word) = packNNN 0xF 0 by decide, packNNN, packNNN, append_and, nibble_and_mask]
  simp [packNNN]

theorem packXNN_family (f x : Nibble) (b : Byte) : packXNN f x b &&& 0xF000 = packXNN f 0 0 := by
  rw [show (0xF000 : Word) = packXNN 0xF 0 0 by decide, packXNN, packXNN, append_and, append_and, nibble_and_mask]
  simp [packXNN]

theorem packXNN_sub (f x : Nibble) (b : Byte) : packXNN f x b &&& 0xF0FF = packXNN f 0 b := by
  rw [show (0xF0FF : Word) = packXNN 0xF 0 0xFF by decide, packXNN, packXNN, append_and, append_and, nibble_and_mask,
    byte_and_mask]
  simp [packXNN]

theorem packXYN_family (f x y n : Nibble) : packXYN f x y n &&& 0xF000 = packXYN f 0 0 0 := by
  rw [show (0xF000 : Word) = packXYN 0xF 0 0 0 by decide, packXYN, packXYN, append_and, append_and, append_and,
    nibble_and_mask]
  simp [packXYN]

theorem packXYN_sub (f x y n : Nibble) : packXYN f x y n &&& 0xF00F = packXYN f 0 0 n := by
  rw [show (0xF00F : Word) = packXYN 0xF 0 0 0xF by decide, packXYN, packXYN, append_and, append_and, append_and,
    nibble_and_mask, nibble_and_mask]
  simp [packXYN]

theorem regIndexOk_toNat (x : Nibble) : regIndexOk x.toNat = true := decide_eq_true x.isLt
theorem nibbleOk_toNat (n : Nibble) : nibbleOk n.toNat = true := decide_eq_true n.isLt
theorem byteOk_toNat (b : Byte) : byteOk b.toNat = true := decide_eq_true b.isLt
theorem addr12Ok_toNat (a : Addr12) : addr12Ok a.toNat = true := decide_eq_true a.isLt

namespace Laws.OperandsInRange

/-- Rule R83: the operands lie in their ranges. -/
def Statement (i : Instr) : Prop := i.wellFormed = true

theorem cls : Statement .cls := rfl
theorem ret : Statement .ret := rfl
theorem jp (nnn : Addr12) : Statement (.jp nnn) := addr12Ok_toNat nnn
theorem call (nnn : Addr12) : Statement (.call nnn) := addr12Ok_toNat nnn
theorem seImm (x : Nibble) (nn : Byte) : Statement (.seImm x nn) := by
  simp [Statement, Instr.wellFormed, regIndexOk_toNat, byteOk_toNat]
theorem sneImm (x : Nibble) (nn : Byte) : Statement (.sneImm x nn) := by
  simp [Statement, Instr.wellFormed, regIndexOk_toNat, byteOk_toNat]
theorem seReg (x : Nibble) (y : Nibble) (n : Nibble) : Statement (.seReg x y n) := by
  simp [Statement, Instr.wellFormed, regIndexOk_toNat, nibbleOk_toNat]
theorem ldImm (x : Nibble) (nn : Byte) : Statement (.ldImm x nn) := by
  simp [Statement, Instr.wellFormed, regIndexOk_toNat, byteOk_toNat]
theorem addImm (x : Nibble) (nn : Byte) : Statement (.addImm x nn) := by
  simp [Statement, Instr.wellFormed, regIndexOk_toNat, byteOk_toNat]
theorem ldReg (x : Nibble) (y : Nibble) : Statement (.ldReg x y) := by
  simp [Statement, Instr.wellFormed, regIndexOk_toNat]
theorem orReg (x : Nibble) (y : Nibble) : Statement (.orReg x y) := by
  simp [Statement, Instr.wellFormed, regIndexOk_toNat]
theorem andReg (x : Nibble) (y : Nibble) : Statement (.andReg x y) := by
  simp [Statement, Instr.wellFormed, regIndexOk_toNat]
theorem xorReg (x : Nibble) (y : Nibble) : Statement (.xorReg x y) := by
  simp [Statement, Instr.wellFormed, regIndexOk_toNat]
theorem addReg (x : Nibble) (y : Nibble) : Statement (.addReg x y) := by
  simp [Statement, Instr.wellFormed, regIndexOk_toNat]
theorem subReg (x : Nibble) (y : Nibble) : Statement (.subReg x y) := by
  simp [Statement, Instr.wellFormed, regIndexOk_toNat]
theorem shrReg (x : Nibble) (y : Nibble) : Statement (.shrReg x y) := by
  simp [Statement, Instr.wellFormed, regIndexOk_toNat]
theorem subnReg (x : Nibble) (y : Nibble) : Statement (.subnReg x y) := by
  simp [Statement, Instr.wellFormed, regIndexOk_toNat]
theorem shlReg (x : Nibble) (y : Nibble) : Statement (.shlReg x y) := by
  simp [Statement, Instr.wellFormed, regIndexOk_toNat]
theorem sneReg (x : Nibble) (y : Nibble) (n : Nibble) : Statement (.sneReg x y n) := by
  simp [Statement, Instr.wellFormed, regIndexOk_toNat, nibbleOk_toNat]
theorem ldI (nnn : Addr12) : Statement (.ldI nnn) := addr12Ok_toNat nnn
theorem jpV0 (nnn : Addr12) : Statement (.jpV0 nnn) := addr12Ok_toNat nnn
theorem rnd (x : Nibble) (nn : Byte) : Statement (.rnd x nn) := by
  simp [Statement, Instr.wellFormed, regIndexOk_toNat, byteOk_toNat]
theorem drw (x : Nibble) (y : Nibble) (n : Nibble) : Statement (.drw x y n) := by
  simp [Statement, Instr.wellFormed, regIndexOk_toNat, nibbleOk_toNat]
theorem skp (x : Nibble) : Statement (.skp x) := regIndexOk_toNat x
theorem sknp (x : Nibble) : Statement (.sknp x) := regIndexOk_toNat x
theorem ldVxDt (x : Nibble) : Statement (.ldVxDt x) := regIndexOk_toNat x
theorem ldVxK (x : Nibble) : Statement (.ldVxK x) := regIndexOk_toNat x
theorem ldDtVx (x : Nibble) : Statement (.ldDtVx x) := regIndexOk_toNat x
theorem ldStVx (x : Nibble) : Statement (.ldStVx x) := regIndexOk_toNat x
theorem addI (x : Nibble) : Statement (.addI x) := regIndexOk_toNat x
theorem ldF (x : Nibble) : Statement (.ldF x) := regIndexOk_toNat x
theorem ldB (x : Nibble) : Statement (.ldB x) := regIndexOk_toNat x
theorem storeRegs (x : Nibble) : Statement (.storeRegs x) := regIndexOk_toNat x
theorem loadRegs (x : Nibble) : Statement (.loadRegs x) := regIndexOk_toNat x

end Laws.OperandsInRange

namespace Laws.EncodesOwnRow

/-- Rule R92: the instruction's row is a row of the map, and its word selects that row. -/
def Statement (i : Instr) : Prop := i.row ∈ opcodeRows ∧ i.row.selects (encode i) = true

/-- The word selects the row when masking gives the pattern. -/
theorem of_mask {i : Instr} (hm : i.row ∈ opcodeRows) (h : encode i &&& i.row.mask = i.row.pattern) : Statement i :=
  ⟨hm, by simp [OpcodeRow.selects, h]⟩

theorem cls : Statement .cls := of_mask (by decide) (by decide)
theorem ret : Statement .ret := of_mask (by decide) (by decide)
theorem jp (nnn : Addr12) : Statement (.jp nnn) :=
  of_mask (by simp only [Instr.row]; decide) ((packNNN_family _ _).trans (by simp only [Instr.row]; decide))
theorem call (nnn : Addr12) : Statement (.call nnn) :=
  of_mask (by simp only [Instr.row]; decide) ((packNNN_family _ _).trans (by simp only [Instr.row]; decide))
theorem seImm (x : Nibble) (nn : Byte) : Statement (.seImm x nn) :=
  of_mask (by simp only [Instr.row]; decide) ((packXNN_family _ _ _).trans (by simp only [Instr.row]; decide))
theorem sneImm (x : Nibble) (nn : Byte) : Statement (.sneImm x nn) :=
  of_mask (by simp only [Instr.row]; decide) ((packXNN_family _ _ _).trans (by simp only [Instr.row]; decide))
theorem seReg (x : Nibble) (y : Nibble) (n : Nibble) : Statement (.seReg x y n) :=
  of_mask (by simp only [Instr.row]; decide) ((packXYN_family _ _ _ _).trans (by simp only [Instr.row]; decide))
theorem ldImm (x : Nibble) (nn : Byte) : Statement (.ldImm x nn) :=
  of_mask (by simp only [Instr.row]; decide) ((packXNN_family _ _ _).trans (by simp only [Instr.row]; decide))
theorem addImm (x : Nibble) (nn : Byte) : Statement (.addImm x nn) :=
  of_mask (by simp only [Instr.row]; decide) ((packXNN_family _ _ _).trans (by simp only [Instr.row]; decide))
theorem ldReg (x : Nibble) (y : Nibble) : Statement (.ldReg x y) :=
  of_mask (by simp only [Instr.row]; decide) ((packXYN_sub _ _ _ _).trans (by simp only [Instr.row]; decide))
theorem orReg (x : Nibble) (y : Nibble) : Statement (.orReg x y) :=
  of_mask (by simp only [Instr.row]; decide) ((packXYN_sub _ _ _ _).trans (by simp only [Instr.row]; decide))
theorem andReg (x : Nibble) (y : Nibble) : Statement (.andReg x y) :=
  of_mask (by simp only [Instr.row]; decide) ((packXYN_sub _ _ _ _).trans (by simp only [Instr.row]; decide))
theorem xorReg (x : Nibble) (y : Nibble) : Statement (.xorReg x y) :=
  of_mask (by simp only [Instr.row]; decide) ((packXYN_sub _ _ _ _).trans (by simp only [Instr.row]; decide))
theorem addReg (x : Nibble) (y : Nibble) : Statement (.addReg x y) :=
  of_mask (by simp only [Instr.row]; decide) ((packXYN_sub _ _ _ _).trans (by simp only [Instr.row]; decide))
theorem subReg (x : Nibble) (y : Nibble) : Statement (.subReg x y) :=
  of_mask (by simp only [Instr.row]; decide) ((packXYN_sub _ _ _ _).trans (by simp only [Instr.row]; decide))
theorem shrReg (x : Nibble) (y : Nibble) : Statement (.shrReg x y) :=
  of_mask (by simp only [Instr.row]; decide) ((packXYN_sub _ _ _ _).trans (by simp only [Instr.row]; decide))
theorem subnReg (x : Nibble) (y : Nibble) : Statement (.subnReg x y) :=
  of_mask (by simp only [Instr.row]; decide) ((packXYN_sub _ _ _ _).trans (by simp only [Instr.row]; decide))
theorem shlReg (x : Nibble) (y : Nibble) : Statement (.shlReg x y) :=
  of_mask (by simp only [Instr.row]; decide) ((packXYN_sub _ _ _ _).trans (by simp only [Instr.row]; decide))
theorem sneReg (x : Nibble) (y : Nibble) (n : Nibble) : Statement (.sneReg x y n) :=
  of_mask (by simp only [Instr.row]; decide) ((packXYN_family _ _ _ _).trans (by simp only [Instr.row]; decide))
theorem ldI (nnn : Addr12) : Statement (.ldI nnn) :=
  of_mask (by simp only [Instr.row]; decide) ((packNNN_family _ _).trans (by simp only [Instr.row]; decide))
theorem jpV0 (nnn : Addr12) : Statement (.jpV0 nnn) :=
  of_mask (by simp only [Instr.row]; decide) ((packNNN_family _ _).trans (by simp only [Instr.row]; decide))
theorem rnd (x : Nibble) (nn : Byte) : Statement (.rnd x nn) :=
  of_mask (by simp only [Instr.row]; decide) ((packXNN_family _ _ _).trans (by simp only [Instr.row]; decide))
theorem drw (x : Nibble) (y : Nibble) (n : Nibble) : Statement (.drw x y n) :=
  of_mask (by simp only [Instr.row]; decide) ((packXYN_family _ _ _ _).trans (by simp only [Instr.row]; decide))
theorem skp (x : Nibble) : Statement (.skp x) :=
  of_mask (by simp only [Instr.row]; decide) ((packXNN_sub _ _ _).trans (by simp only [Instr.row]; decide))
theorem sknp (x : Nibble) : Statement (.sknp x) :=
  of_mask (by simp only [Instr.row]; decide) ((packXNN_sub _ _ _).trans (by simp only [Instr.row]; decide))
theorem ldVxDt (x : Nibble) : Statement (.ldVxDt x) :=
  of_mask (by simp only [Instr.row]; decide) ((packXNN_sub _ _ _).trans (by simp only [Instr.row]; decide))
theorem ldVxK (x : Nibble) : Statement (.ldVxK x) :=
  of_mask (by simp only [Instr.row]; decide) ((packXNN_sub _ _ _).trans (by simp only [Instr.row]; decide))
theorem ldDtVx (x : Nibble) : Statement (.ldDtVx x) :=
  of_mask (by simp only [Instr.row]; decide) ((packXNN_sub _ _ _).trans (by simp only [Instr.row]; decide))
theorem ldStVx (x : Nibble) : Statement (.ldStVx x) :=
  of_mask (by simp only [Instr.row]; decide) ((packXNN_sub _ _ _).trans (by simp only [Instr.row]; decide))
theorem addI (x : Nibble) : Statement (.addI x) :=
  of_mask (by simp only [Instr.row]; decide) ((packXNN_sub _ _ _).trans (by simp only [Instr.row]; decide))
theorem ldF (x : Nibble) : Statement (.ldF x) :=
  of_mask (by simp only [Instr.row]; decide) ((packXNN_sub _ _ _).trans (by simp only [Instr.row]; decide))
theorem ldB (x : Nibble) : Statement (.ldB x) :=
  of_mask (by simp only [Instr.row]; decide) ((packXNN_sub _ _ _).trans (by simp only [Instr.row]; decide))
theorem storeRegs (x : Nibble) : Statement (.storeRegs x) :=
  of_mask (by simp only [Instr.row]; decide) ((packXNN_sub _ _ _).trans (by simp only [Instr.row]; decide))
theorem loadRegs (x : Nibble) : Statement (.loadRegs x) :=
  of_mask (by simp only [Instr.row]; decide) ((packXNN_sub _ _ _).trans (by simp only [Instr.row]; decide))

end Laws.EncodesOwnRow

end Sys2Proof
end

