-- ==== Sys2Proof/Tests/Slice0.lean ====
section
/-! SUPPORT. Tests: what `WellFormed` refuses, a word of each constructor, single steps on the spec's vectors
(spec/95_test_vectors.md), and a witness for the hypotheses of each statement. -/

open Sys2Proof Sys2Proof.Machine Sys2Proof.Claims

namespace Sys2Proof.Tests

/-! WellFormed: each check takes the largest legal value and refuses an ill-formed one. -/

theorem test_regIndexOk : regIndexOk 15 = true ∧ regIndexOk 16 = false := by decide

theorem test_nibbleOk : nibbleOk 15 = true ∧ nibbleOk 16 = false := by decide

theorem test_byteOk : byteOk 255 = true ∧ byteOk 256 = false := by decide

theorem test_addr12Ok : addr12Ok 4095 = true ∧ addr12Ok 4096 = false := by decide

theorem test_instr_wellFormed : (Instr.drw 15 15 15).wellFormed = true := by decide

theorem test_opcodeRow_wellFormed :
    OpcodeRow.wellFormed ⟨0xF00F, 0x8004⟩ = true ∧ OpcodeRow.wellFormed ⟨0xF00F, 0x8014⟩ = false := by decide

theorem test_supportedWord : supportedWord 0x00EE = true ∧ supportedWord 0x0123 = false ∧ supportedWord 0x8128 = false ∧
    supportedWord 0xE5A2 = false ∧ supportedWord 0xF0FF = false := by decide

theorem test_params_wellFormed : ({ defaultParams with ipf := 1 } : Params).wellFormed = true ∧
    ({ defaultParams with ipf := 0 } : Params).wellFormed = false := by decide

theorem test_imageOk : imageOk (List.replicate 3584 0) = true ∧ imageOk (List.replicate 3585 0) = false := by
  rw [imageOk, imageOk, List.length_replicate, List.length_replicate]; decide

theorem test_selectorOk : selectorOk 2 = true ∧ selectorOk 3 = false := by decide

/-! Decoding: words written out from rules R81, R86, R89 to R92. -/

theorem test_decode_low : decodeWord 0x00E0 = .ok .cls ∧ decodeWord 0x00EE = .ok .ret ∧
    decodeWord 0x1ABC = .ok (.jp 0xABC) ∧ decodeWord 0x2300 = .ok (.call 0x300) ∧
    decodeWord 0x3342 = .ok (.seImm 3 0x42) ∧ decodeWord 0x4A5C = .ok (.sneImm 0xA 0x5C) ∧
    decodeWord 0x5127 = .ok (.seReg 1 2 7) ∧ decodeWord 0x6A5C = .ok (.ldImm 0xA 0x5C) ∧
    decodeWord 0x7102 = .ok (.addImm 1 2) := by decide

theorem test_decode_alu : decodeWord 0x8AB0 = .ok (.ldReg 0xA 0xB) ∧ decodeWord 0x8AB1 = .ok (.orReg 0xA 0xB) ∧
    decodeWord 0x8AB2 = .ok (.andReg 0xA 0xB) ∧ decodeWord 0x8AB3 = .ok (.xorReg 0xA 0xB) ∧
    decodeWord 0x8AB4 = .ok (.addReg 0xA 0xB) ∧ decodeWord 0x8AB5 = .ok (.subReg 0xA 0xB) ∧
    decodeWord 0x8AB6 = .ok (.shrReg 0xA 0xB) ∧ decodeWord 0x8AB7 = .ok (.subnReg 0xA 0xB) ∧
    decodeWord 0x8ABE = .ok (.shlReg 0xA 0xB) := by decide

theorem test_decode_middle : decodeWord 0x9125 = .ok (.sneReg 1 2 5) ∧ decodeWord 0xA123 = .ok (.ldI 0x123) ∧
    decodeWord 0xB300 = .ok (.jpV0 0x300) ∧ decodeWord 0xC50F = .ok (.rnd 5 0x0F) ∧
    decodeWord 0xD125 = .ok (.drw 1 2 5) ∧ decodeWord 0xE59E = .ok (.skp 5) ∧
    decodeWord 0xE5A1 = .ok (.sknp 5) := by decide

theorem test_decode_familyF : decodeWord 0xF307 = .ok (.ldVxDt 3) ∧ decodeWord 0xF00A = .ok (.ldVxK 0) ∧
    decodeWord 0xF215 = .ok (.ldDtVx 2) ∧ decodeWord 0xF218 = .ok (.ldStVx 2) ∧ decodeWord 0xF11E = .ok (.addI 1) ∧
    decodeWord 0xF429 = .ok (.ldF 4) ∧ decodeWord 0xF033 = .ok (.ldB 0) ∧
    decodeWord 0xF255 = .ok (.storeRegs 2) ∧ decodeWord 0xFF65 = .ok (.loadRegs 0xF) := by decide

theorem test_decode_rejects : decodeWord 0x0000 = .error (.unsupported 0x0000) ∧
    decodeWord 0x00FF = .error (.unsupported 0x00FF) ∧ decodeWord 0x812F = .error (.unsupported 0x812F) ∧
    decodeWord 0xE5A2 = .error (.unsupported 0xE5A2) ∧ decodeWord 0xF002 = .error (.unsupported 0xF002) := by decide

theorem test_decode_bytes : decode [0x60, 0x05, 0x61] = .ok (.ldImm 0 5, [0x61]) ∧ decode [0x60] = .error .truncated ∧
    encodeBytes (.addReg 0 1) = [0x80, 0x14] ∧ decodeTableWord 16 0x8014 = some (.addReg 0 1) ∧
    decodeTableWord 16 0x0123 = none := by decide

/-- W2: the fields of 0xD125. -/
theorem test_fields : decodeFields 0xD125 = ⟨0xD, 1, 2, 5, 0x25, 0x125⟩ := by decide

/-! Single steps: the start state of the vectors, with `IPF` named. -/

/-- The state after reset with three instructions to a frame. -/
def start : State := { State.reset with params := { defaultParams with ipf := 3 } }

/-- `start` with a parameter record of one's own. -/
def startWith (f : Params → Params) : State := { start with params := f start.params }

/-- The state after one step of the word `w` at `PC`. -/
def after (s : State) (w : Nat) : State :=
  match step (s.withFetchWord 16 w) with
  | .next t => t
  | _ => s

/-- The record of a halt at 0x200. -/
def haltedBy (code : ErrorCode) (w : Word) : Halt := .halted code (some w) 0x200

/-- Two sprite rows at 0x300, as the vectors of family 0xD have them. -/
def sprite : State := { start with mem := start.mem.writeBytes 0x300 [0xC0, 0x80], idx := 0x300 }

/-- The first step from the reset state itself runs the placed word. -/
theorem test_first_step : ∃ t, step (State.reset.withFetchWord 16 0x6A5C) = .next t ∧ t.getV 0xA = 0x5C := ⟨_, rfl, by decide⟩

/-- Log entry 6: with nothing placed, the first fetch reads 0x0000. -/
theorem test_empty_program :
    step State.reset = .next { State.reset with halt := haltedBy .unsupportedOpcode 0x0000 } := rfl

/-- V-S1. -/
theorem test_cls : (after { start with fb := start.fb.set 3 1 } 0x00E0).fb = Framebuffer.blank ∧
    (after start 0x00E0).pc = 0x202 ∧ (after start 0x00E0).portLog = [.dispClear] := by decide

/-- V-S2. -/
theorem test_ret_empty :
    (after start 0x00EE).halt = haltedBy .stackUnderflow 0x00EE ∧ (after start 0x00EE).pc = 0x200 := by decide

/-- V-S3. -/
theorem test_ret : (after { start with sp := 1, stack := start.stack.set 0 0x20A } 0x00EE).pc = 0x20A ∧
    (after { start with sp := 1, stack := start.stack.set 0 0x20A } 0x00EE).sp = 0 := by decide

/-- V-S5. -/
theorem test_unsupported : (after { start with mode := .xochip } 0x00FF).halt = haltedBy .unsupportedOpcode 0x00FF := by
  decide

/-- V-S6, V-S7: a jump to 0xFFF succeeds, the next fetch does not. -/
theorem test_jp : (after start 0x1FFF).pc = 0xFFF ∧
    (after (after start 0x1FFF) 0).halt = .halted .addressError none 0xFFF := by decide

/-- V-S9. -/
theorem test_call : (after start 0x2300).pc = 0x300 ∧ (after start 0x2300).sp = 1 ∧
    (after start 0x2300).stack[0] = 0x202 := by decide

/-- V-S10. -/
theorem test_call_full : (after { start with sp := 16 } 0x2300).halt = haltedBy .stackOverflow 0x2300 ∧
    (after { start with sp := 16 } 0x2300).sp = 16 := by decide

/-- V-J1, V-J2. -/
theorem test_seImm : (after (start.setV 3 0x42) 0x3342).pc = 0x204 ∧ (after (start.setV 3 0x42) 0x3343).pc = 0x202 := by
  decide

/-- V-J3, V-J4. -/
theorem test_sneImm : (after (start.setV 3 0x42) 0x4343).pc = 0x204 ∧ (after (start.setV 3 0x42) 0x4342).pc = 0x202 := by
  decide

/-- V-J6. -/
theorem test_seReg : (after ((start.setV 1 7).setV 2 7) 0x5127).pc = 0x204 ∧
    (after ((start.setV 1 7).setV 2 8) 0x5120).pc = 0x202 := by decide

/-- V-J7, V-J8. -/
theorem test_sneReg : (after ((start.setV 1 7).setV 2 8) 0x9120).pc = 0x204 ∧
    (after ((start.setV 1 7).setV 2 7) 0x9125).pc = 0x202 := by decide

/-- V-L1. -/
theorem test_ldImm : (after start 0x6A5C).getV 0xA = 0x5C ∧ (after start 0x6A5C).pc = 0x202 := by decide

/-- V-L2, V-L3. -/
theorem test_addImm : (after ((start.setV 1 0xFF).setV 15 0x33) 0x7102).getV 1 = 1 ∧
    (after ((start.setV 1 0xFF).setV 15 0x33) 0x7102).getV 15 = 0x33 ∧
    (after (start.setV 15 0x10) 0x7FF0).getV 15 = 0 := by decide

/-- V-A15. -/
theorem test_ldReg : (after ((start.setV 2 0x3C).setV 15 7) 0x8120).v.toList.take 3 = [0, 0x3C, 0x3C] ∧
    (after ((start.setV 2 0x3C).setV 15 7) 0x8120).getV 15 = 7 := by decide

/-- V-A16. -/
theorem test_orReg : (after (((start.setV 1 0xF0).setV 2 0x0F).setV 15 7) 0x8121).getV 1 = 0xFF ∧
    (after (((start.setV 1 0xF0).setV 2 0x0F).setV 15 7) 0x8121).getV 15 = 0 := by decide

/-- V-A17, in mode SCHIP. -/
theorem test_andReg : let s := { ((start.setV 1 0xF0).setV 2 0x3C).setV 15 7 with mode := .schip }
    (after s 0x8122).getV 1 = 0x30 ∧ (after s 0x8122).getV 15 = 7 := by decide

/-- V-A18. -/
theorem test_xorReg : (after (((start.setV 1 0xAA).setV 2 0xFF).setV 15 7) 0x8123).getV 1 = 0x55 ∧
    (after (((start.setV 1 0xAA).setV 2 0xFF).setV 15 7) 0x8123).getV 15 = 0 := by decide

/-- V-A4: exactly 255 is no carry. -/
theorem test_addReg : (after ((start.setV 0 0x80).setV 1 0x7F) 0x8014).getV 0 = 0xFF ∧
    (after ((start.setV 0 0x80).setV 1 0x7F) 0x8014).getV 15 = 0 := by decide

/-- V-A12, V-A13: x = F under both orders. -/
theorem test_addReg_vf : (after ((start.setV 15 0xC8).setV 10 0x40) 0x8FA4).getV 15 = 1 ∧
    (after (((startWith fun p => { p with vfOrder := .resultLast }).setV 15 0xC8).setV 10 0x40) 0x8FA4).getV 15 = 8 := by
  decide

/-- V-A6. -/
theorem test_subReg_borrow : (after ((start.setV 0 3).setV 1 5) 0x8015).getV 0 = 0xFE ∧
    (after ((start.setV 0 3).setV 1 5) 0x8015).getV 15 = 0 := by decide

/-- V-A7: equal operands give no borrow. -/
theorem test_subReg_equal : (after ((start.setV 0 9).setV 1 9) 0x8015).getV 0 = 0 ∧
    (after ((start.setV 0 9).setV 1 9) 0x8015).getV 15 = 1 := by decide

/-- V-A19. -/
theorem test_shrReg : let s := (start.setV 1 0xFF).setV 2 4
    (after s 0x8126).getV 1 = 2 ∧ (after s 0x8126).getV 15 = 0 ∧
    (after { s with mode := .schip } 0x8126).getV 1 = 0x7F ∧ (after { s with mode := .schip } 0x8126).getV 15 = 1 := by
  decide

/-- V-A9, V-A10. -/
theorem test_subnReg : (after ((start.setV 0 3).setV 1 5) 0x8017).getV 0 = 2 ∧
    (after ((start.setV 0 3).setV 1 5) 0x8017).getV 15 = 1 ∧ (after ((start.setV 0 5).setV 1 3) 0x8017).getV 0 = 0xFE := by
  decide

/-- V-A21. -/
theorem test_shlReg : let s := (start.setV 1 1).setV 2 0x81
    (after s 0x812E).getV 1 = 2 ∧ (after s 0x812E).getV 15 = 1 ∧ (after { s with mode := .schip } 0x812E).getV 15 = 0 := by
  decide

/-- V-I1. -/
theorem test_ldI : (after start 0xA123).idx = 0x123 ∧ (after start 0xA123).pc = 0x202 := by decide

/-- V-I3, V-I4. -/
theorem test_jpV0 : (after (start.setV 0 0xFF) 0xBFFF).pc = 0x10FE ∧
    (after ((start.setV 3 0x20).setV 0 1) 0xB300).pc = 0x301 := by decide

/-- V-I5; the byte is taken, and nothing else of the inputs (rule R182: a fresh sample each time). -/
theorem test_rnd : let s := { start with inputs := ⟨[5], [0xB7, 0x3C], [2], 0⟩ }
    (after s 0xC50F).getV 5 = 7 ∧ (after s 0xC50F).inputs = ⟨[5], [0x3C], [2], 1⟩ ∧
    (after (after s 0xC50F) 0xC50F).getV 5 = 0xC := by decide

/-- V-D2: clipped at column 63 and row 31. -/
theorem test_drw_clips : let t := after ((sprite.setV 0 63).setV 1 31) 0xD012
    t.fb = Framebuffer.blank.set 31 1 ∧ t.getV 15 = 0 := by decide

/-- V-D3b: the pre-draw shadow comes back, and the second draw collides. -/
theorem test_drw_twice : let t := after { sprite with fb := Framebuffer.blank.set 0 (1 <<< 62) } 0xD011
    t.fb = Framebuffer.blank.set 0 (1 <<< 63) ∧ t.getV 15 = 1 ∧
    (after t 0xD011).fb = Framebuffer.blank.set 0 (1 <<< 62) ∧ (after t 0xD011).getV 15 = 1 := by decide

/-- V-E1, V-E5; one key sample is taken, and by a failing skip none (rules R34, R243). -/
theorem test_skp : let s := { start.setV 5 7 with inputs := ⟨[0x80, 0x08], [1], [2], 0⟩ }
    (after s 0xE59E).pc = 0x204 ∧ (after s 0xE59E).inputs = ⟨[0x08], [1], [2], 1⟩ ∧
    (after (s.setV 5 0x10) 0xE59E).halt = haltedBy .keyIndexRange 0xE59E ∧
    (after (s.setV 5 0x10) 0xE59E).inputs = s.inputs := by decide

/-- V-E4, V-E6. -/
theorem test_sknp : (after { start.setV 5 7 with inputs := ⟨[0x88], [], [], 0⟩ } 0xE5A1).pc = 0x202 ∧
    (after ((startWith fun p => { p with keyIndexPolicy := .notHeld }).setV 5 0x10) 0xE5A1).pc = 0x204 := by decide

/-- V-F1. -/
theorem test_ldVxDt : (after { start with dt := 0x3C } 0xF307).getV 3 = 0x3C := by decide

/-- V-K4: key 7 is chosen, and its release completes the wait while key 3 is held. -/
theorem test_ldVxK : let s := { start with pc := 0x20A, inputs := ⟨[0x88, 0x08], [], [7], 0⟩ }
    (after s 0xF00A).pc = 0x20A ∧ (after s 0xF00A).latch = some 7 ∧ (after s 0xF00A).inputs = ⟨[0x08], [], [], 2⟩ ∧
    (after (after s 0xF00A) 0xF00A).getV 0 = 7 ∧ (after (after s 0xF00A) 0xF00A).pc = 0x20C := by decide

/-- V-K1: no key, rewind. -/
theorem test_ldVxK_idle : let s := { start with inputs := ⟨[0], [], [], 0⟩ }
    (after s 0xF00A).pc = 0x200 ∧ (after s 0xF00A).latch = none ∧ (after s 0xF00A).cyc = 1 := by decide

/-- V-F2. -/
theorem test_ldDtVx : (after (start.setV 2 3) 0xF215).dt = 3 := by decide

/-- V-F3: BEEP waits for the tick. -/
theorem test_ldStVx : (after (start.setV 2 0x10) 0xF218).st = 0x10 ∧ (after (start.setV 2 0x10) 0xF218).beep = false := by
  decide

/-- V-F5. -/
theorem test_addI_wraps : (after { start.setV 1 2 with idx := 0xFFFF } 0xF11E).idx = 1 ∧
    (after { start.setV 1 2 with idx := 0xFFFF } 0xF11E).getV 15 = 1 := by decide

/-- V-F6. -/
theorem test_addI_keeps : (after { (start.setV 1 1).setV 15 0x55 with idx := 0x100 } 0xF11E).getV 15 = 0x55 := by
  decide

/-- V-F7. -/
theorem test_ldF : (after (start.setV 4 0xA) 0xF429).idx = 0x082 := by decide

/-- V-F9. -/
theorem test_ldF_range : (after (start.setV 4 0x10) 0xF429).halt = haltedBy .glyphDigitRange 0xF429 ∧
    (after ((startWith fun p => { p with glyphDigitPolicy := .maskLowNibble }).setV 4 0x10) 0xF429).idx = 0x050 ∧
    (after ((startWith fun p => { p with glyphDigitPolicy := .unmasked }).setV 4 0x10) 0xF429).idx = 0x0A0 := by
  decide

/-- V-F10. -/
theorem test_ldB : (after { start.setV 0 254 with idx := 0x300 } 0xF033).mem.readBytes 0x2FF 5 = [0, 2, 5, 4, 0] := by
  decide

/-- V-F12, V-F15. -/
theorem test_ldB_errors : (after { start with idx := 0xFFE } 0xF033).halt = haltedBy .addressError 0xF033 ∧
    (after { start with idx := 0x04E } 0xF033).halt = haltedBy .fontRegionWrite 0xF033 := by decide

/-- V-F17. -/
theorem test_storeRegs : let s := { ((start.setV 0 1).setV 1 2).setV 2 3 with idx := 0x300 }
    (after s 0xF255).mem.readBytes 0x300 4 = [1, 2, 3, 0] ∧ (after s 0xF255).idx = 0x303 ∧
    (after { s with mode := .schip } 0xF255).idx = 0x300 := by decide

/-- V-F19. -/
theorem test_storeRegs_range : (after { start with idx := 0xFFF } 0xF155).halt = haltedBy .addressError 0xF155 := by
  decide

/-- V-F21: the default font. -/
theorem test_loadRegs : (after { start with idx := 0x050 } 0xFF65).v.toList =
      [0xF0, 0x90, 0x90, 0x90, 0xF0, 0x20, 0x60, 0x20, 0x20, 0x70, 0xF0, 0x10, 0xF0, 0x80, 0xF0, 0xF0] ∧
    (after { start with idx := 0x050 } 0xFF65).idx = 0x060 := by decide

/-- V-T4, V-T5: the third cycle of a frame ends with the tick. -/
theorem test_tick : let s := { start with cyc := 2, dt := 5, st := 1 }
    (after s 0x6000).dt = 4 ∧ (after s 0x6000).cyc = 0 ∧ (after s 0x6000).st = 0 ∧ (after s 0x6000).beep = false ∧
    (after { s with params := { s.params with beepSample := .preDecrement } } 0x6000).beep = true := by decide

/-- V-T6: no tick after a failing step. -/
theorem test_no_tick : let t := after { start with cyc := 2, dt := 5 } 0x0123
    t.dt = 5 ∧ t.cyc = 2 ∧ t.halt = haltedBy .unsupportedOpcode 0x0123 := by decide

/-- W3: the image, the zeros around it and the font. -/
theorem test_boot : ∃ s, boot defaultParams defaultFont [0xAB, 0xCD, 0xEF] 0 = .ok s ∧
    s.mem.readBytes 0x1FF 5 = [0, 0xAB, 0xCD, 0xEF, 0] ∧ s.mem.readBytes 0x04F 3 = [0, 0xF0, 0x90] :=
  ⟨_, rfl, by decide +kernel⟩

/-- W3: the mode selector is tested first. -/
theorem test_boot_mode : boot defaultParams defaultFont [] 3 = .error .modeError := rfl

/-! Witnesses: for each statement with hypotheses, a state and operands that meet them, one for each clause, at the
boundary of its range. In a statement about `exec` the state is that of the execute phase: `PC` is past the
instruction. -/

/-- `start` in the execute phase of the instruction at 0x200. -/
def executing : State := start.advance

/-- `executing` with `I` holding `a`. -/
def indexing (a : Word) : State := { executing with idx := a }

/-- The font policy `Write`. -/
def fontWritable (s : State) : State := { s with params := { s.params with fontWritePolicy := .write } }

/-- The digit, key and mode-table policies other than the defaults. -/
def lenient : State :=
  { executing with params := { executing.params with
      glyphDigitPolicy := .unmasked, keyIndexPolicy := .notHeld,
      quirks := { chip8 := quirksChip8, schip := quirksChip8, xochip := quirksXochip } } }

theorem witness_RetPopsOrUnderflows :
    executing.sp.val = 0 ∧ 0 < ({ executing with sp := 1 } : State).sp.val ∧
      0 < ({ executing with sp := 16 } : State).sp.val := by decide

theorem witness_CallPushesOrOverflows :
    ({ executing with sp := 16 } : State).sp.val = 16 ∧ executing.sp.val < 16 ∧
      ({ executing with sp := 15 } : State).sp.val < 16 := by decide

theorem witness_SkipsCompareVxWithImmediate :
    (executing.setV 15 0xFF).getV 15 = 0xFF ∧ (executing.setV 15 0xFF).getV 15 ≠ 0xFE := by decide

theorem witness_SkipsCompareVxWithVy :
    executing.getV 0 = executing.getV 15 ∧ (executing.setV 15 1).getV 0 ≠ (executing.setV 15 1).getV 15 := by decide

theorem witness_LogicalOperationsFollowTheVfQuirk :
    executing.quirks.logicVfReset = true ∧ ({ executing with mode := .schip } : State).quirks.logicVfReset = false := by
  decide

theorem witness_ShiftsTakeTheQuirkSource :
    executing.quirks.shiftSrc = .vy ∧ ({ executing with mode := .schip } : State).quirks.shiftSrc ≠ .vy ∧
      (0xFF : Nat) = (if executing.quirks.shiftSrc = .vy then (executing.setV 2 0xFF).getV 2
        else (executing.setV 2 0xFF).getV 1).toNat := by decide

theorem witness_RandomIsMaskedAndFree :
    ({ executing with inputs := ⟨[], [0xFF], [], 0⟩ } : State).inputs.randBytes = 0xFF :: [] ∧
      executing.inputs.randBytes = [] := ⟨rfl, rfl⟩

/-- In range: n = 0 wherever `I` points, and the last byte at 0xFFF; out of range: the last byte at 0x1000. -/
theorem witness_draw_ranges :
    inRange (indexing 0xFFFF) 0 ∧ inRange (indexing 0xFFF) 1 ∧ ¬ inRange (indexing 0xFFF) 2 := by
  simp [inRange, indexing]

/-- Toggled cells at the last row and column, on a lit and on a clear display. -/
theorem witness_DrawTogglesCellsAndReportsCollision :
    let s := { (sprite.setV 0 63).setV 1 31 with fb := Framebuffer.blank.set 31 1 }
    toggles s 0 1 2 31 63 = true ∧ s.fb.pixel 31 63 = true ∧
      ∀ (r : Fin 32) (c : Nat), c < 64 → toggles sprite 0 1 2 r.val c = true → sprite.fb.pixel r c = false := by
  refine ⟨by decide, by decide, fun r c _ _ => ?_⟩
  show (Framebuffer.blank[r.val]).getMsbD c = false
  simp [Framebuffer.blank]

theorem witness_KeySkipsTestTheSample :
    (({ executing with inputs := ⟨[0xFFFF], [], [], 0⟩ } : State).inputs.keySamples = 0xFFFF :: [] ∧
      executing.inputs.keySamples = []) ∧
    ((executing.setV 5 15).getV 5).toNat ≤ 15 ∧
      (((lenient.setV 5 16).getV 5).toNat > 15 ∧ (lenient.setV 5 16).params.keyIndexPolicy = .notHeld) ∧
      ((executing.setV 5 16).getV 5).toNat > 15 ∧ (executing.setV 5 16).params.keyIndexPolicy = .fault := by decide

theorem witness_KeyWaitLatchesRewindsOrCompletes :
    (executing.latch = none ∧ ({ executing with inputs := ⟨[0], [], [], 0⟩ } : State).keys = 0) ∧
      (({ executing with inputs := ⟨[0x8001], [], [15], 0⟩ } : State).keys ≠ 0 ∧
        ({ executing with inputs := ⟨[0x8001], [], [15], 0⟩ } : State).inputs.choices = 15 :: [] ∧
        ({ executing with inputs := ⟨[0x8001], [], [15], 0⟩ } : State).keys.getLsbD 15 = true) ∧
      (({ executing with latch := some 15, inputs := ⟨[0x8000], [], [], 0⟩ } : State).latch = some 15 ∧
        ({ executing with latch := some 15, inputs := ⟨[0x8000], [], [], 0⟩ } : State).keys.getLsbD 15 = true) ∧
      ({ executing with latch := some 15, inputs := ⟨[0x7FFF], [], [], 0⟩ } : State).keys.getLsbD 15 = false := by decide

theorem witness_GlyphAddressOfDigit :
    (((executing.setV 4 16).getV 4).toNat > 15 ∧ (executing.setV 4 16).params.glyphDigitPolicy = .fault) ∧
      ((executing.setV 4 15).getV 4).toNat ≤ 15 ∧
      ((lenient.setV 4 255).getV 4).toNat > 15 ∧ (lenient.setV 4 255).params.glyphDigitPolicy ≠ .fault := by decide

/-- V-F12 to V-F16: the last legal and the first illegal index, and both edges of the font region. -/
theorem witness_DecimalDigitsAreStored :
    executing.mem.wf = true ∧ inRange (indexing 0xFFD) 3 ∧ ¬ inRange (indexing 0xFFE) 3 ∧
      fontAllows (indexing 0x04D) 3 ∧ ¬ fontAllows (indexing 0x04E) 3 ∧ ¬ fontAllows (indexing 0x09F) 3 ∧
      fontAllows (indexing 0x0A0) 3 ∧ fontAllows (fontWritable (indexing 0x09F)) 3 := by
  have hp : ∀ a, (indexing a).params.fontWritePolicy = .fault := fun _ => rfl
  have hi : ∀ a, (indexing a).idx = a := fun _ => rfl
  refine ⟨rfl, ?_, ?_, ?_, ?_, ?_, ?_, .inl rfl⟩ <;> simp only [inRange, fontAllows, hp, hi] <;> decide

/-- V-F18, V-F19. -/
theorem witness_BulkStoreWritesV0ToVx :
    executing.mem.wf = true ∧ inRange (indexing 0xFFF) ((0 : Nibble).toNat + 1) ∧
      fontAllows (indexing 0xFFF) ((0 : Nibble).toNat + 1) ∧ ¬ inRange (indexing 0xFFF) ((1 : Nibble).toNat + 1) ∧
      (inRange (indexing 0x041) ((15 : Nibble).toNat + 1) ∧ ¬ fontAllows (indexing 0x041) ((15 : Nibble).toNat + 1)) := by
  have hp : ∀ a, (indexing a).params.fontWritePolicy = .fault := fun _ => rfl
  have hi : ∀ a, (indexing a).idx = a := fun _ => rfl
  refine ⟨rfl, ?_, ?_, ?_, ?_, ?_⟩ <;> simp only [inRange, fontAllows, hp, hi] <;> decide

theorem witness_BulkLoadFillsV0ToVx :
    inRange (indexing 0xFF0) ((15 : Nibble).toNat + 1) ∧ ¬ inRange (indexing 0xFF1) ((15 : Nibble).toNat + 1) := by
  have hi : ∀ a, (indexing a).idx = a := fun _ => rfl
  constructor <;> simp only [inRange, hi] <;> decide

theorem witness_ReturnComesBackAfterCall :
    ∃ s t u : State, s.sp.val < 16 ∧ exec (.call 0x300) s = .next t ∧ u.stack = t.stack ∧ u.sp = t.sp ∧ u ≠ t :=
  ⟨{ executing with sp := 15 }, _, { executing with sp := 16, stack := executing.stack.set 15 0x202 }, by decide, rfl,
    by decide, by decide, by decide⟩

theorem witness_MemoryReadsTheLastWrite :
    Memory.wf [(0xFFE, 1)] = true ∧ (0xFFF : Nat) ≤ 0xFFF ∧ (0xFFE : Nat) ≠ 0xFFF := by decide

theorem witness_EqualMemoriesAreEqualData :
    ∃ m m' : Memory, m.wf = true ∧ m'.wf = true ∧ ∀ a, a ≤ 0xFFF → m.read a = m'.read a :=
  ⟨[(0x300, 1)], [(0x300, 1)], rfl, rfl, fun _ _ => rfl⟩

theorem witness_ChooseTakesAnyHeldKey :
    (0x8001 : KeySet) ≠ 0 ∧ (0x8001 : KeySet).getLsbD (15 : KeyId).toNat = true := by decide

/-- V-K3 for the release, V-K2 for a key still held. -/
theorem witness_KeyWaitCompletesOnRelease :
    ∃ s t s' t' : State, (s.latch = none ∧ s.keys ≠ 0 ∧ exec (.ldVxK 0) s = .next t ∧ t.latch = some 7 ∧
        t.keys.getLsbD 7 = false) ∧
      s'.latch = none ∧ s'.keys ≠ 0 ∧ exec (.ldVxK 0) s' = .next t' ∧ t'.latch = some 7 ∧ t'.keys.getLsbD 7 = true :=
  ⟨{ executing with inputs := ⟨[0x80, 0], [], [7], 0⟩ }, _, { executing with inputs := ⟨[0x80, 0x80], [], [7], 0⟩ }, _,
    ⟨by decide, by decide, rfl, by decide, by decide⟩, by decide, by decide, rfl, by decide, by decide⟩

/-- V-D3b. -/
theorem witness_DoubleDrawRestoresTheShadow :
    ∃ s t u : State, (0 : Nibble) ≠ 0xF#4 ∧ (1 : Nibble) ≠ 0xF#4 ∧ inRange s (1 : Nibble).toNat ∧
      exec (.drw 0 1 1) s = .next t ∧ u.fb = t.fb ∧ u.idx = t.idx ∧ u.mem = t.mem ∧ u.getV 0 = t.getV 0 ∧
      u.getV 1 = t.getV 1 ∧ t.halt = .running :=
  ⟨sprite, _, _, by decide, by decide, .inr (by decide), rfl, rfl, rfl, rfl, rfl, rfl, by decide⟩

theorem witness_DrawRefinesTheCellLoop :
    inRange (indexing 0xFF1) (15 : Nibble).toNat ∧ inRange (indexing 0xFFFF) (0 : Nibble).toNat := by
  have hi : ∀ a, (indexing a).idx = a := fun _ => rfl
  constructor <;> simp only [inRange, hi] <;> decide

theorem witness_DecodeInvertsEncode : (Instr.seReg 15 15 15).wellFormed = true := by decide

theorem witness_EncodeInvertsDecode : decodeWord 0x5FFF = .ok (.seReg 15 15 15) := by decide

theorem witness_OpcodeRowsNeverOverlap :
    (⟨0xF0FF, 0xF00A⟩ : OpcodeRow) ∈ opcodeRows ∧ OpcodeRow.selects ⟨0xF0FF, 0xF00A⟩ 0xFF0A = true := by decide

/-- The last address with a following byte. -/
theorem witness_StepRunsTheDecodedInstruction : let s := { start with pc := 0xFFE, mem := [(0xFFE, 0x6A), (0xFFF, 0x01)] }
    s.halt = .running ∧ s.pc.toNat ≤ 4094 ∧
      decodeWord (s.mem.read s.pc.toNat ++ s.mem.read (s.pc.toNat + 1)) = .ok (.ldImm 0xA 1) := by decide

theorem witness_FetchAbove4094Halts :
    ({ start with pc := 0xFFF } : State).halt = .running ∧ ({ start with pc := 0xFFF } : State).pc.toNat > 4094 := by decide

theorem witness_UnsupportedWordsHalt :
    (start.halt = .running ∧ start.pc.toNat ≤ 4094 ∧
      (0x0000 : Word) = start.mem.read start.pc.toNat ++ start.mem.read (start.pc.toNat + 1) ∧ unsupportedBy96 0x0000) ∧
      unsupportedBy96 0x812F ∧ unsupportedBy96 0xE5A2 ∧ unsupportedBy96 0xF002 := by
  refine ⟨⟨by decide, by decide, by decide, ?_⟩, ?_, ?_, ?_⟩ <;> simp only [unsupportedBy96] <;> decide

theorem witness_StepExistsExactlyWhileRunning :
    (∃ t, step start = .next t) ∧ ({ start with halt := .halted .addressError none 0xFFF } : State).halt ≠ .running :=
  ⟨⟨_, rfl⟩, by decide⟩

theorem witness_OnlyListedInstructionsRaise :
    cannotRaise (.addI 15) = true ∧ 0 < ({ executing with sp := 1 } : State).sp.val ∧
      (({ start with pc := 0xFFF } : State).halt = .running ∧ ({ start with pc := 0xFFF } : State).pc.toNat > 4094) ∧
      ∃ s t : State, step s = .next t ∧ t.halt ≠ .running :=
  ⟨by decide, by decide, by decide, start, _, rfl, by decide⟩

/-- An error of an instruction, of an unsupported word and of the fetch. -/
theorem witness_ErrorsArePrecise :
    (∃ t, step (start.withFetchWord 16 0x00EE) = .next t ∧ t.halt ≠ .running) ∧
      (∃ t, step start = .next t ∧ t.halt ≠ .running) ∧
      ∃ t, step { start with pc := 0xFFF } = .next t ∧ t.halt ≠ .running :=
  ⟨⟨_, rfl, by decide⟩, ⟨_, rfl, by decide⟩, ⟨_, rfl, by decide⟩⟩

/-- A cycle inside a frame and the last of a frame. -/
theorem witness_FrameBookkeepingFollowsCompletion : let s := start.withFetchWord 16 0x6A01
    (s.halt = .running ∧ s.pc.toNat ≤ 4094 ∧
      decodeWord (s.mem.read s.pc.toNat ++ s.mem.read (s.pc.toNat + 1)) = .ok (.ldImm 0xA 1)) ∧
      (∃ t, exec (.ldImm 0xA 1) { s with pc := s.pc + 2 } = .next t ∧ t.halt = .running ∧ t.cyc + 1 ≠ t.params.ipf) ∧
      ∃ t, exec (.ldImm 0xA 1) { s with pc := s.pc + 2, cyc := 2 } = .next t ∧ t.halt = .running ∧
        t.cyc + 1 = t.params.ipf :=
  ⟨by decide, ⟨_, rfl, rfl, by decide⟩, ⟨_, rfl, rfl, by decide⟩⟩

/-- A jump to itself, from the last cycle of a frame into the next. -/
theorem witness_FramesAreIpfCyclesLong : let s := { start.withFetchWord 16 0x1200 with cyc := 2 }
    s.cyc < s.params.ipf ∧ ∃ t, Host.Core.run Sys2Proof.core 2 s = .next t ∧ t.halt = .running ∧ t.cyc = 1 :=
  ⟨by decide, _, rfl, rfl, by decide⟩

theorem start_inv : start.Inv := ⟨rfl, by decide, by decide, fun _ _ h => absurd h (Nat.not_lt_zero _)⟩

/-- A step that completes and one that halts. -/
theorem witness_StepKeepsTheInvariant :
    ∃ s t u v : State, s.Inv ∧ step s = .next t ∧ t.halt ≠ .running ∧ u.Inv ∧ step u = .next v ∧ v.halt = .running :=
  ⟨start, _, { start with mem := [(0x200, 0x22)] }, _, start_inv, rfl, by decide,
    ⟨rfl, by decide, by decide, fun _ _ h => absurd h (Nat.not_lt_zero _)⟩, rfl, by decide⟩

/-- An instruction that does not consult the mode, and a table in which two modes agree. -/
theorem witness_ModeIsReadOnlyAndReadThroughQuirks :
    (∃ t, step start = .next t) ∧ consultsMode (.addReg 1 2) = false ∧
      ({ lenient with mode := .schip } : State).quirks = lenient.quirks ∧ lenient.mode ≠ .schip :=
  ⟨⟨_, rfl⟩, rfl, rfl, by decide⟩

/-- Both edges of the font region, and a step that stores just past it. -/
theorem witness_FontRegionIsNeverMutated : let s := { start.withFetchWord 16 0xF055 with idx := 0x0A0 }
    s.mem.wf = true ∧ s.params.fontWritePolicy = .fault ∧ (∃ t, step s = .next t ∧ t.halt = .running) ∧
      (0x050 : Nat) ≤ 0x050 ∧ (0x09F : Nat) ≤ 0x09F := ⟨by decide, rfl, ⟨_, rfl, by decide⟩, by decide, by decide⟩

theorem witness_InstructionsWriteOnlyWhatTheTableLists :
    ∃ t, exec (.storeRegs 15) (indexing 0x300) = .next t ∧ t.halt = (indexing 0x300).halt ∧
      (indexing 0x300).halt = .running := ⟨_, rfl, by decide, rfl⟩

theorem witness_VfChangesOnlyAsListed :
    ∃ t, exec (.subReg 1 2) executing = .next t ∧ t.getV 0xF#4 ≠ executing.getV 0xF#4 := ⟨_, rfl, by decide⟩

/-- A step that takes a key sample and a choice, one that takes a random byte, one that takes nothing, and one that halts. -/
theorem witness_EachStepTakesExactlyItsSamples :
    let s := { start with inputs := ⟨[0x8001], [0xFF], [15], 0⟩ }
    (∃ t, step (s.withFetchWord 16 0xF00A) = .next t ∧ t.halt = .running ∧ t.inputs = ⟨[], [0xFF], [], 2⟩) ∧
      (∃ t, step (s.withFetchWord 16 0xC5FF) = .next t ∧ t.halt = .running ∧ t.inputs = ⟨[0x8001], [], [15], 1⟩) ∧
      (∃ t, step (s.withFetchWord 16 0x6A01) = .next t ∧ t.halt = .running ∧ t.inputs = s.inputs) ∧
      ∃ t, step s = .next t ∧ t.halt ≠ .running ∧ t.inputs = s.inputs :=
  ⟨⟨_, rfl, by decide⟩, ⟨_, rfl, by decide⟩, ⟨_, rfl, by decide⟩, ⟨_, rfl, by decide⟩⟩

/-- The edges of the selector and of the image length. -/
theorem witness_InitialisationGivesTheResetValues :
    (2 < 3) ∧ (2 ≤ 2) ∧ 3584 < (List.replicate 3585 (0 : Byte)).length ∧
      (List.replicate 3584 (0 : Byte)).length ≤ 3584 := by
  rw [List.length_replicate, List.length_replicate]; decide

end Sys2Proof.Tests
end

section
/-! PROOFS. The step of a running engine. -/

namespace Sys2Proof.Machine

/-- Settles O39 (rule R102): the spec lemma of `step` for a decoded word; the fetched word and the advanced state are
those of the statement by definition. -/
theorem stepRunsTheDecodedInstruction : Obligations.StepRunsTheDecodedInstruction := by
  intro s i hrunning hpc hdecode
  calc step s = finishStep (exec i s.advance) := step_decoded hrunning hpc hdecode
    _ = finishStep (exec i { s with pc := s.pc + 2 }) := rfl

end Sys2Proof.Machine
end

section
/-! PROOFS. Families 0x0, 0x1, 0x3 to 0x5 and 0x9: the display clear, the jump and the skips (rules R120, R123, R125 to
R128). -/

namespace Sys2Proof.Machine

/-- Rule R120: every pixel of the all-clear display shadow is 0. -/
@[simp] theorem Framebuffer.pixel_blank (r : Fin 32) (c : Nat) : Framebuffer.blank.pixel r c = false := by
  simp [Framebuffer.pixel, Framebuffer.blank]

/-! The skips under a comparison of two bytes (rule R24). -/

theorem State.skipIf_beq (s : State) (a b : Byte) :
    s.skipIf (a == b) = if a = b then { s with pc := s.pc + 2 } else s := by
  by_cases h : a = b
  · rw [if_pos h, beq_iff_eq.2 h]; rfl
  · rw [if_neg h, beq_eq_false_iff_ne.2 h]; rfl

theorem State.skipIf_bne (s : State) (a b : Byte) :
    s.skipIf (a != b) = if a ≠ b then { s with pc := s.pc + 2 } else s := by
  by_cases h : a = b
  · rw [if_neg (not_not.2 h), bne_eq_false_iff_eq.2 h]; rfl
  · rw [if_pos h, bne_iff_ne.2 h]; rfl

/-! What each instruction does, once. -/

theorem exec_cls (s : State) :
    exec .cls s = .next { s with fb := Framebuffer.blank, portLog := .dispClear :: s.portLog } := rfl

theorem exec_jp (nnn : Addr12) (s : State) : exec (.jp nnn) s = .next { s with pc := addrOfImm nnn } := rfl

theorem exec_seImm (x : Nibble) (nn : Byte) (s : State) :
    exec (.seImm x nn) s = .next (if s.getV x = nn then { s with pc := s.pc + 2 } else s) :=
  congrArg _ (s.skipIf_beq (s.getV x) nn)

theorem exec_sneImm (x : Nibble) (nn : Byte) (s : State) :
    exec (.sneImm x nn) s = .next (if s.getV x ≠ nn then { s with pc := s.pc + 2 } else s) :=
  congrArg _ (s.skipIf_bne (s.getV x) nn)

theorem exec_seReg (x y n : Nibble) (s : State) :
    exec (.seReg x y n) s = .next (if s.getV x = s.getV y then { s with pc := s.pc + 2 } else s) :=
  congrArg _ (s.skipIf_beq (s.getV x) (s.getV y))

theorem exec_sneReg (x y n : Nibble) (s : State) :
    exec (.sneReg x y n) s = .next (if s.getV x ≠ s.getV y then { s with pc := s.pc + 2 } else s) :=
  congrArg _ (s.skipIf_bne (s.getV x) (s.getV y))

/-- Settles O1 (rule R120): the shadow after the clear is the blank one, of which every pixel is 0. -/
theorem clsClearsTheDisplay : Obligations.ClsClearsTheDisplay := by
  intro s
  exact ⟨rfl, _, exec_cls s, fun r c _ => Framebuffer.pixel_blank r c, rfl⟩

/-- Settles O3 (rule R123): the zero-extended immediate keeps its number. -/
theorem jpSetsPc : Obligations.JpSetsPc := by
  intro nnn s
  exact ⟨rfl, _, exec_jp nnn s, toNat_addrOfImm nnn, rfl⟩

/-- Settles O5 (rules R125, R126), by the two outcomes of the comparison. -/
theorem skipsCompareVxWithImmediate : Obligations.SkipsCompareVxWithImmediate := by
  intro x nn s
  refine ⟨rfl, rfl, fun heq => ?_, fun hne => ?_⟩
  · simp [exec_seImm, exec_sneImm, heq]
  · simp [exec_seImm, exec_sneImm, hne]

/-- Settles O6 (rules R127, R128), by the two outcomes of the comparison; the low nibble is not read. -/
theorem skipsCompareVxWithVy : Obligations.SkipsCompareVxWithVy := by
  intro x y n s
  refine ⟨rfl, rfl, fun heq => ?_, fun hne => ?_⟩
  · simp [exec_seReg, exec_sneReg, heq]
  · simp [exec_seReg, exec_sneReg, hne]

end Sys2Proof.Machine
end

section
/-! PROOFS. Families 0x6 and 0x7: the load and the add of an immediate (rules R140, R141). -/

namespace Sys2Proof.Machine

open Sys2Proof.Claims

/-- Rule R21: a register write is the destination, every other register kept, and the frame. -/
theorem State.writesReg_setV (s : State) (x : Nibble) (b : Byte) : writesReg s (s.setV x b) x b :=
  ⟨fun k => s.getV_setV x k b, rfl⟩

/-- Rule R160: narrowing the integer sum to a byte reduces it mod 256. -/
theorem addResult_eq_ofNat_mod (a b : Byte) : addResult a b = BitVec.ofNat 8 ((a.toNat + b.toNat) % 256) := by
  apply BitVec.eq_of_toNat_eq
  simp [toNat_addResult]

theorem exec_ldImm (x : Nibble) (nn : Byte) (s : State) : exec (.ldImm x nn) s = .next (s.setV x nn) := rfl

theorem exec_addImm (x : Nibble) (nn : Byte) (s : State) :
    exec (.addImm x nn) s = .next (s.setV x (addResult (s.getV x) nn)) := rfl

/-- Settles O7 (rule R140): the instruction is one register write, for `x = 0xF` too. -/
theorem loadImmediateWritesVx : Obligations.LoadImmediateWritesVx := by
  intro x nn s
  exact ⟨rfl, _, exec_ldImm x nn s, s.writesReg_setV x nn⟩

/-- Settles O8 (rule R141): the instruction is one register write of the narrowed sum, so VF changes only where it is the
destination. -/
theorem addImmediateWritesNoFlag : Obligations.AddImmediateWritesNoFlag := by
  intro x nn s
  refine ⟨rfl, _, exec_addImm x nn s, ?_⟩
  rw [← addResult_eq_ofNat_mod]
  exact s.writesReg_setV x _

end Sys2Proof.Machine
end

section
/-! PROOFS. Family 0x8: the register load (rule R151). -/

namespace Sys2Proof.Machine

theorem exec_ldReg (x y : Nibble) (s : State) : exec (.ldReg x y) s = .next (s.setV x (s.getV y)) := rfl

/-- Settles O9 (rule R151): the instruction is one register write of the old `V[y]`, so VF changes only where it is the
destination. -/
theorem loadRegisterCopiesVy : Obligations.LoadRegisterCopiesVy := by
  intro x y s
  exact ⟨rfl, _, exec_ldReg x y s, s.writesReg_setV x (s.getV y)⟩

end Sys2Proof.Machine
end

section
/-! PROOFS. Families 0xA and 0xB: the index load and the jump by V0 (rules R180, R181). -/

namespace Sys2Proof.Machine

/-- Rule R181: a 12-bit address plus a byte is at most 0x10FE, so the 16-bit sum does not wrap. -/
theorem toNat_addrOfImm_add_byte (nnn : Addr12) (b : Byte) :
    (addrOfImm nnn + b.zeroExtend 16).toNat = nnn.toNat + b.toNat := by
  have hb : (b.zeroExtend 16).toNat = b.toNat := BitVec.toNat_setWidth_of_le (by decide)
  have hfits : nnn.toNat + b.toNat < 2 ^ 16 := by omega
  rw [BitVec.toNat_add, toNat_addrOfImm, hb, Nat.mod_eq_of_lt hfits]

theorem exec_ldI (nnn : Addr12) (s : State) : exec (.ldI nnn) s = .next (s.setI (addrOfImm nnn)) := rfl

theorem exec_jpV0 (nnn : Addr12) (s : State) :
    exec (.jpV0 nnn) s = .next (s.setPc (addrOfImm nnn + (s.getV 0#4).zeroExtend 16)) := rfl

/-- Settles O14 (rule R180): the instruction is one write of `I`, and the zero-extended immediate keeps its number. -/
theorem loadIndexWritesI : Obligations.LoadIndexWritesI := by
  intro nnn s
  exact ⟨rfl, _, exec_ldI nnn s, toNat_addrOfImm nnn, rfl⟩

/-- Settles O15 (rule R181): the instruction is one write of `PC`, and the sum does not wrap. -/
theorem jumpV0AddsV0 : Obligations.JumpV0AddsV0 := by
  intro nnn s
  exact ⟨rfl, _, exec_jpV0 nnn s, toNat_addrOfImm_add_byte nnn (s.getV 0#4), rfl⟩

end Sys2Proof.Machine
end

section
/-! PROOFS. Family 0xF: the timer read and the timer writes (rules R211, R216, R217). -/

namespace Sys2Proof.Machine

theorem exec_ldVxDt (x : Nibble) (s : State) : exec (.ldVxDt x) s = .next (s.setV x s.dt) := rfl

theorem exec_ldDtVx (x : Nibble) (s : State) : exec (.ldDtVx x) s = .next (s.setDt (s.getV x)) := rfl

theorem exec_ldStVx (x : Nibble) (s : State) : exec (.ldStVx x) s = .next (s.setSt (s.getV x)) := rfl

/-- Settles O19 (rule R211): the instruction is one register write of `DT`, for `x = 0xF` too. -/
theorem loadDelayTimerReadsDt : Obligations.LoadDelayTimerReadsDt := by
  intro x s
  exact ⟨rfl, _, exec_ldVxDt x s, s.writesReg_setV x s.dt⟩

/-- Settles O21 (rules R216, R217): each instruction is one timer write, and neither touches `BEEP`, which only a tick
changes. -/
theorem timerWritesSetDtAndSt : Obligations.TimerWritesSetDtAndSt := by
  intro x s
  exact ⟨rfl, rfl, exec_ldDtVx x s, exec_ldStVx x s⟩

end Sys2Proof.Machine
end

section
/-! PROOFS. The decoder and the encoder (rules R81, R86 to R96): each inverts the other, the rows of the opcode map are
disjoint, and the words that name no instruction. -/

namespace Sys2Proof

open Sys2Proof.Claims

/-- Rule R92: the decoder reads an instruction back from its word; the fields of the word are its operands. -/
theorem decodeWord_encode (i : Instr) : decodeWord (encode i) = .ok i := by
  cases i
  case cls | ret => rfl
  case jp | call | ldI | jpV0 => simp [decodeWord, encode, packNNN_fields]
  case seImm | sneImm | ldImm | addImm | rnd => simp [decodeWord, encode, packXNN_fields]
  case seReg | sneReg | drw => simp [decodeWord, encode, packXYN_fields]
  case ldReg | orReg | andReg | xorReg | addReg | subReg | shrReg | subnReg | shlReg =>
    simp [decodeWord, encode, selectFamily8, packXYN_fields]
  case skp | sknp => simp [decodeWord, encode, selectFamilyE, packXNN_fields]
  case ldVxDt | ldVxK | ldDtVx | ldStVx | addI | ldF | ldB | storeRegs | loadRegs =>
    simp [decodeWord, encode, selectFamilyF, packXNN_fields]

/-- Settles O35 (rules R70, R92): the two bytes of the word are put together again, and the word decodes to the
instruction. -/
theorem decodeInvertsEncode : Obligations.DecodeInvertsEncode := by
  intro i _
  refine ⟨decodeWord_encode i, fun rest => ?_⟩
  simp only [encodeBytes, bytesOfWord, List.cons_append, List.nil_append, decode, wordOfBytes_bytes, decodeWord_encode]

/-! A word in a family that its fields are packed of. -/

theorem packNNN_of_family {w : Word} {f : Nibble} (h : (decodeFields w).family = f) :
    packNNN f (decodeFields w).nnn = w := h ▸ packNNN_decode w

theorem packXNN_of_family {w : Word} {f : Nibble} (h : (decodeFields w).family = f) :
    packXNN f (decodeFields w).x (decodeFields w).nn = w := h ▸ packXNN_decode w

theorem packXYN_of_family {w : Word} {f : Nibble} (h : (decodeFields w).family = f) :
    packXYN f (decodeFields w).x (decodeFields w).y (decodeFields w).n = w := h ▸ packXYN_decode w

theorem encode_of_selectFamily0 {w : Word} {i : Instr} (h : selectFamily0 w = .ok i) : encode i = w := by
  unfold selectFamily0 at h
  split at h
  · cases h; exact Eq.symm ‹_›
  · split at h <;> cases h
    exact Eq.symm ‹_›

theorem encode_of_selectFamily8 {w : Word} {i : Instr} (hf : (decodeFields w).family = 0x8)
    (h : selectFamily8 w (decodeFields w) = .ok i) : encode i = w := by
  have hw := packXYN_of_family hf
  unfold selectFamily8 at h
  split at h <;> cases h
  all_goals rw [‹(decodeFields w).n = _›] at hw; exact hw

theorem encode_of_selectFamilyE {w : Word} {i : Instr} (hf : (decodeFields w).family = 0xE)
    (h : selectFamilyE w (decodeFields w) = .ok i) : encode i = w := by
  have hw := packXNN_of_family hf
  unfold selectFamilyE at h
  split at h <;> cases h
  all_goals rw [‹(decodeFields w).nn = _›] at hw; exact hw

theorem encode_of_selectFamilyF {w : Word} {i : Instr} (hf : (decodeFields w).family = 0xF)
    (h : selectFamilyF w (decodeFields w) = .ok i) : encode i = w := by
  have hw := packXNN_of_family hf
  unfold selectFamilyF at h
  split at h <;> cases h
  all_goals rw [‹(decodeFields w).nn = _›] at hw; exact hw

/-- Decoding drops no bit: by the family of the word, and by the sub-opcode in the families that have one. -/
theorem encode_of_decodeWord {w : Word} {i : Instr} (h : decodeWord w = .ok i) : encode i = w := by
  unfold decodeWord at h
  dsimp only at h
  split at h
  case h_1 => exact encode_of_selectFamily0 h
  case h_9 hf => exact encode_of_selectFamily8 hf h
  case h_15 hf => exact encode_of_selectFamilyE hf h
  case h_16 hf => exact encode_of_selectFamilyF hf h
  case h_17 => cases h
  case h_2 hf | h_3 hf | h_11 hf | h_12 hf => cases h; exact packNNN_of_family hf
  case h_4 hf | h_5 hf | h_7 hf | h_8 hf | h_13 hf => cases h; exact packXNN_of_family hf
  case h_6 hf | h_10 hf | h_14 hf => cases h; exact packXYN_of_family hf

/-- Rule R83: the operand types have the ranges of the rule, so every instruction is well formed. -/
theorem Instr.wellFormed_eq_true (i : Instr) : i.wellFormed = true := by
  cases i <;>
    simp only [Instr.wellFormed, regIndexOk_toNat, nibbleOk_toNat, byteOk_toNat, addr12Ok_toNat, Bool.and_self]

/-- Settles O36 (rules R81, R83, R92). -/
theorem encodeInvertsDecode : Obligations.EncodeInvertsDecode := by
  intro w i h
  exact ⟨encode_of_decodeWord h, i.wellFormed_eq_true⟩

/-! The rows of the opcode map (rule R92): a row's mask keeps the fields that tell its instruction apart. -/

theorem decodeFields_and (w m : Word) :
    (decodeFields (w &&& m)).family = (decodeFields w).family &&& (decodeFields m).family ∧
      (decodeFields (w &&& m)).n = (decodeFields w).n &&& (decodeFields m).n ∧
      (decodeFields (w &&& m)).nn = (decodeFields w).nn &&& (decodeFields m).nn := by
  simp [decodeFields, BitVec.extractLsb'_and]

/-- A word that selects a row agrees with the row's pattern in each field, as far as the mask keeps it. -/
theorem fields_of_selects {r : OpcodeRow} {w : Word} (h : r.selects w = true) :
    (decodeFields w).family &&& (decodeFields r.mask).family = (decodeFields r.pattern).family ∧
      (decodeFields w).n &&& (decodeFields r.mask).n = (decodeFields r.pattern).n ∧
      (decodeFields w).nn &&& (decodeFields r.mask).nn = (decodeFields r.pattern).nn := by
  obtain ⟨hfamily, hn, hnn⟩ := decodeFields_and w r.mask
  rw [eq_of_beq (show (w &&& r.mask == r.pattern) = true from h)] at hfamily hn hnn
  exact ⟨hfamily.symm, hn.symm, hnn.symm⟩

/-! The fields of a word that selects a row, where the row's mask keeps them whole: those of the row's pattern. -/

theorem family_of_selects {r : OpcodeRow} {w : Word} (h : r.selects w = true)
    (hm : (decodeFields r.mask).family = 0xF) : (decodeFields w).family = (decodeFields r.pattern).family := by
  rw [← (fields_of_selects h).1, hm, nibble_and_mask]

theorem n_of_selects {r : OpcodeRow} {w : Word} (h : r.selects w = true)
    (hm : (decodeFields r.mask).n = 0xF) : (decodeFields w).n = (decodeFields r.pattern).n := by
  rw [← (fields_of_selects h).2.1, hm, nibble_and_mask]

theorem nn_of_selects {r : OpcodeRow} {w : Word} (h : r.selects w = true)
    (hm : (decodeFields r.mask).nn = 0xFF) : (decodeFields w).nn = (decodeFields r.pattern).nn := by
  rw [← (fields_of_selects h).2.2, hm, byte_and_mask]

theorem decodeWord_of_selects_low {w : Word} {r : OpcodeRow} (hr : r ∈ opcodeRowsLow) (h : r.selects w = true) :
    ∃ i, decodeWord w = .ok i ∧ i.row = r := by
  fin_cases hr
  iterate 2
    · have hw := eq_of_beq h
      rw [show w &&& 0xFFFF = w from BitVec.and_allOnes] at hw
      subst hw
      exact ⟨_, rfl, rfl⟩
  all_goals
    have hfamily := family_of_selects h (by decide)
    exact ⟨_, by simp only [decodeWord, hfamily]; rfl, rfl⟩

theorem decodeWord_of_selects_alu {w : Word} {r : OpcodeRow} (hr : r ∈ opcodeRowsAlu) (h : r.selects w = true) :
    ∃ i, decodeWord w = .ok i ∧ i.row = r := by
  fin_cases hr
  all_goals
    have hfamily := family_of_selects h (by decide)
    have hn := n_of_selects h (by decide)
    exact ⟨_, by simp only [decodeWord, hfamily, selectFamily8, hn]; rfl, rfl⟩

theorem decodeWord_of_selects_high {w : Word} {r : OpcodeRow} (hr : r ∈ opcodeRowsHigh) (h : r.selects w = true) :
    ∃ i, decodeWord w = .ok i ∧ i.row = r := by
  fin_cases hr
  iterate 5
    · have hfamily := family_of_selects h (by decide)
      exact ⟨_, by simp only [decodeWord, hfamily]; rfl, rfl⟩
  all_goals
    have hfamily := family_of_selects h (by decide)
    have hnn := nn_of_selects h (by decide)
    exact ⟨_, by simp only [decodeWord, hfamily, selectFamilyE, selectFamilyF, hnn]; rfl, rfl⟩

/-- A row of the map that a word selects is the row of the instruction the word decodes to. -/
theorem decodeWord_of_selects {w : Word} {r : OpcodeRow} (hr : r ∈ opcodeRows) (h : r.selects w = true) :
    ∃ i, decodeWord w = .ok i ∧ i.row = r := by
  simp only [opcodeRows, List.mem_append] at hr
  obtain (hr | hr) | hr := hr
  · exact decodeWord_of_selects_low hr h
  · exact decodeWord_of_selects_alu hr h
  · exact decodeWord_of_selects_high hr h

open Laws.EncodesOwnRow in
/-- Rule R92: an instruction's word selects the instruction's own row. -/
theorem encode_selects_row (i : Instr) : i.row ∈ opcodeRows ∧ i.row.selects (encode i) = true :=
  Instr.casesOn (motive := Laws.EncodesOwnRow.Statement) i cls ret jp call seImm sneImm seReg ldImm addImm ldReg orReg
    andReg xorReg addReg subReg shrReg subnReg shlReg sneReg ldI jpV0 rnd drw skp sknp ldVxDt ldVxK ldDtVx ldStVx addI ldF
    ldB storeRegs loadRegs

/-- Settles O37 (rule R92): a row that the word selects is the row of the one instruction it decodes to. -/
theorem opcodeRowsNeverOverlap : Obligations.OpcodeRowsNeverOverlap := by
  refine ⟨fun w r hr q hq hrw hqw => ?_, fun w => ⟨?_, fun h => ?_⟩⟩
  · obtain ⟨i, hi, rfl⟩ := decodeWord_of_selects hr hrw
    obtain ⟨j, hj, rfl⟩ := decodeWord_of_selects hq hqw
    rw [Except.ok.inj (hi.symm.trans hj)]
  · rintro ⟨i, hi⟩
    obtain ⟨hmem, hsel⟩ := encode_selects_row i
    rw [encode_of_decodeWord hi] at hsel
    exact List.any_eq_true.2 ⟨i.row, hmem, hsel⟩
  · obtain ⟨r, hr, hsel⟩ := List.any_eq_true.1 h
    obtain ⟨i, hi, -⟩ := decodeWord_of_selects hr hsel
    exact ⟨i, hi⟩

/-- Settles O38 (rules R86 to R92), by running the decoder on the seventeen words. -/
theorem specWordsDecode : Obligations.SpecWordsDecode := by
  exact ⟨rfl, rfl, rfl, rfl, rfl, rfl, rfl, rfl, rfl, rfl, rfl, rfl, rfl, rfl, rfl, rfl, rfl⟩

/-! Rule R96: the words that each family rejects. -/

theorem selectFamily0_rejects (w : Word) : (∃ r, selectFamily0 w = .error r) ↔ w ≠ 0x00E0#16 ∧ w ≠ 0x00EE#16 := by
  unfold selectFamily0
  split
  · simp [*]
  · split <;> simp [*]

theorem selectFamily8_rejects (w : Word) (f : Fields) :
    (∃ r, selectFamily8 w f = .error r) ↔ f.n ∈ [0x8#4, 0x9#4, 0xA#4, 0xB#4, 0xC#4, 0xD#4, 0xF#4] := by
  have hall : ∀ n : Nibble, n ∈ [0x8#4, 0x9#4, 0xA#4, 0xB#4, 0xC#4, 0xD#4, 0xF#4] ∨
      n ∈ [0x0#4, 0x1#4, 0x2#4, 0x3#4, 0x4#4, 0x5#4, 0x6#4, 0x7#4, 0xE#4] := by decide
  unfold selectFamily8
  split
  case h_10 =>
    have := hall f.n
    simp_all
  all_goals simp [*]

theorem selectFamilyE_rejects (w : Word) (f : Fields) :
    (∃ r, selectFamilyE w f = .error r) ↔ f.nn ∉ [0x9E#8, 0xA1#8] := by
  unfold selectFamilyE
  split <;> simp_all

theorem selectFamilyF_rejects (w : Word) (f : Fields) :
    (∃ r, selectFamilyF w f = .error r) ↔
      f.nn ∉ [0x07#8, 0x0A#8, 0x15#8, 0x18#8, 0x1E#8, 0x29#8, 0x33#8, 0x55#8, 0x65#8] := by
  unfold selectFamilyF
  split <;> simp_all

/-- Rule R85: the sixteen families. -/
theorem nibble_cases (f : Nibble) : f ∈ [0x0#4, 0x1#4, 0x2#4, 0x3#4, 0x4#4, 0x5#4, 0x6#4, 0x7#4, 0x8#4, 0x9#4, 0xA#4,
    0xB#4, 0xC#4, 0xD#4, 0xE#4, 0xF#4] := by revert f; decide

/-- Rule R96: the words that name no instruction. -/
theorem unsupportedBy96_iff (w : Word) : unsupportedBy96 w ↔ ∃ r, decodeWord w = .error r := by
  unfold unsupportedBy96 decodeWord
  dsimp only
  split
  case h_1 hf => rw [selectFamily0_rejects]; simp [hf]
  case h_9 hf => rw [selectFamily8_rejects]; simp [hf]
  case h_15 hf => rw [selectFamilyE_rejects]; simp [hf]
  case h_16 hf => rw [selectFamilyF_rejects]; simp [hf]
  case h_17 =>
    have := nibble_cases (decodeFields w).family
    simp_all
  all_goals simp [*]

end Sys2Proof
end

section
/-! PROOFS. The register file and family 0x8: what is written is read back, results, flags and the order of the two writes
(rules R21, R22, R150 to R160). -/

namespace Sys2Proof.Machine

open Sys2Proof.Claims

/-- Settles O27 (rule R21). -/
theorem everyRegisterHoldsWhatIsWritten : Obligations.EveryRegisterHoldsWhatIsWritten := by
  intro s x k b
  exact ⟨s.getV_setV x k b, rfl⟩

/-- Rule R150: `write_rf` writes the result and the flag, in the order of `VF_ORDER`. -/
theorem State.writesResultAndFlag_writeRF (s : State) (x : Nibble) (r f : Byte) :
    writesResultAndFlag s (s.writeRF x r f) x r.toNat f.toNat := by
  refine ⟨fun k => ?_, s.writeRF_frame x r f⟩
  rw [s.getV_writeRF]
  split_ifs <;> rfl

/-- Rules R152 to R154: a logical operation under a mode that resets VF. -/
theorem State.writesResultAndFlag_writeLogic {s : State} (h : s.quirks.logicVfReset = true) (x : Nibble) (r : Byte) :
    writesResultAndFlag s (s.writeLogic x r) x r.toNat 0 := by
  rw [State.writeLogic, if_pos h]
  exact s.writesResultAndFlag_writeRF x r 0

/-- Rules R152 to R154: a logical operation under a mode that leaves VF alone. -/
theorem State.writesReg_writeLogic {s : State} (h : s.quirks.logicVfReset = false) (x : Nibble) (r : Byte) :
    writesReg s (s.writeLogic x r) x r := by
  rw [State.writeLogic, h, if_neg Bool.false_ne_true]
  exact s.writesReg_setV x r

/-- Settles O10 (rules R152 to R154), by the two values of the quirk. -/
theorem logicalOperationsFollowTheVfQuirk : Obligations.LogicalOperationsFollowTheVfQuirk := by
  intro x y s
  refine ⟨⟨rfl, rfl, rfl⟩, _, _, _, rfl, rfl, rfl, fun h => ?_, fun h => ?_⟩
  · exact ⟨s.writesResultAndFlag_writeLogic h x _, s.writesResultAndFlag_writeLogic h x _,
      s.writesResultAndFlag_writeLogic h x _⟩
  · exact ⟨s.writesReg_writeLogic h x _, s.writesReg_writeLogic h x _, s.writesReg_writeLogic h x _⟩

theorem toNat_flag_addCarry (a b : Byte) :
    (flagByte (addCarry a b)).toNat = if a.toNat + b.toNat > 255 then 1 else 0 := by
  simp only [toNat_flagByte, addCarry, decide_eq_true_eq]

theorem toNat_flag_notBorrow (a b : Byte) :
    (flagByte (notBorrow a b)).toNat = if a.toNat ≥ b.toNat then 1 else 0 := by
  simp only [toNat_flagByte, notBorrow, decide_eq_true_eq]

/-- Settles O11 (rule R155): one `write_rf` of the narrowed sum and the carry. -/
theorem addSetsVfToCarry : Obligations.AddSetsVfToCarry := by
  intro x y s
  refine ⟨rfl, _, rfl, ?_⟩
  rw [← toNat_addResult, ← toNat_flag_addCarry]
  exact s.writesResultAndFlag_writeRF x _ _

/-- Settles O12 (rules R156, R158): one `write_rf` of the narrowed difference and the not-borrow. -/
theorem subtractionsSetVfToNotBorrow : Obligations.SubtractionsSetVfToNotBorrow := by
  intro x y s
  refine ⟨rfl, rfl, _, _, rfl, rfl, ?_, ?_⟩
  · rw [← toNat_subResult, ← toNat_flag_notBorrow]
    exact s.writesResultAndFlag_writeRF x _ _
  · rw [← toNat_subResult, ← toNat_flag_notBorrow]
    exact s.writesResultAndFlag_writeRF x _ _

/-- Rules R157, R159: the quirk's source register. -/
theorem State.shiftSource_eq (s : State) (x y : Nibble) :
    s.shiftSource x y = if s.quirks.shiftSrc = .vy then s.getV y else s.getV x := by
  unfold State.shiftSource
  cases s.quirks.shiftSrc <;> rfl

/-- Settles O13 (rules R157, R159): one `write_rf` of the shifted source and the bit shifted out. -/
theorem shiftsTakeTheQuirkSource : Obligations.ShiftsTakeTheQuirkSource := by
  intro x y s
  refine ⟨rfl, rfl, ?_⟩
  rintro src rfl
  refine ⟨_, _, rfl, rfl, ?_⟩
  rw [← s.shiftSource_eq, ← toNat_shrResult, ← toNat_shrOut, ← toNat_shlResult, ← toNat_shlOut]
  exact ⟨s.writesResultAndFlag_writeRF x _ _, s.writesResultAndFlag_writeRF x _ _⟩

end Sys2Proof.Machine
end

section
/-! PROOFS. The stack: the call and the return (rules R26, R121, R124). -/

namespace Sys2Proof.Machine

open Sys2Proof.Claims

theorem exec_ret_of_pos {s : State} (h : 0 < s.sp.val) :
    exec .ret s = .next { s with sp := ⟨s.sp.val - 1, by omega⟩, pc := s.stack[s.sp.val - 1]'(by omega) } := by
  simp only [exec, execRet, s.pop_of_pos h]; rfl

theorem exec_ret_of_empty {s : State} (h : s.sp.val = 0) :
    exec .ret s = .next (raised s .stackUnderflow 0x00EE) := by
  simp only [exec, execRet, s.pop_empty h]; rfl

theorem exec_call_of_lt {s : State} (nnn : Addr12) (h : s.sp.val < 16) :
    exec (.call nnn) s =
      .next { s with stack := s.stack.set s.sp.val s.pc h, sp := ⟨s.sp.val + 1, by omega⟩, pc := addrOfImm nnn } := by
  simp only [exec, execCall, s.push_of_lt s.pc h]; rfl

theorem exec_call_of_full {s : State} (nnn : Addr12) (h : s.sp.val = 16) :
    exec (.call nnn) s = .next (raised s .stackOverflow (hexAddrWord 0x2 nnn)) := by
  simp only [exec, execCall, s.push_full s.pc h]; rfl

/-- Settles O2 (rule R121). -/
theorem retPopsOrUnderflows : Obligations.RetPopsOrUnderflows := by
  intro s
  exact ⟨rfl, exec_ret_of_empty, fun h => ⟨_, exec_ret_of_pos h, rfl, rfl, rfl⟩⟩

/-- Settles O4 (rule R124). -/
theorem callPushesOrOverflows : Obligations.CallPushesOrOverflows := by
  intro nnn s
  exact ⟨rfl, exec_call_of_full nnn, fun h => ⟨_, exec_call_of_lt nnn h, rfl, rfl, toNat_addrOfImm nnn, rfl⟩⟩

/-- Settles O28 (rules R121, R124): the return reads the entry the call wrote. -/
theorem returnComesBackAfterCall : Obligations.ReturnComesBackAfterCall := by
  intro nnn s t u hsp hcall hstack hdepth
  rw [exec_call_of_lt nnn hsp] at hcall
  cases hcall
  have hpos : 0 < u.sp.val := by rw [hdepth]; exact Nat.succ_pos _
  refine ⟨_, exec_ret_of_pos hpos, ?_, ?_, rfl⟩
  · simp [hstack, hdepth]
  · simp [hdepth]

end Sys2Proof.Machine
end

section
/-! PROOFS. Memory: the store and its canonical form, and the instructions that store and load through `I` (rules R66 to
R69, R74, R220 to R223). -/

namespace Sys2Proof.Machine

open Sys2Proof.Claims

/-- Settles O29 (rules R66, R67, R74). -/
theorem memoryReadsTheLastWrite : Obligations.MemoryReadsTheLastWrite := by
  intro m a b hm ha
  refine ⟨Memory.wf_write hm (Nat.lt_succ_of_le ha) b, ?_, fun a' hne => ?_⟩
  · rw [Memory.read_write hm, if_pos rfl]
  · rw [Memory.read_write hm, if_neg hne]

/-- The canonical form, pair by pair. -/
theorem Memory.wfFrom_cons {lo a : Nat} {b : Byte} {m : Memory} :
    Memory.wfFrom lo ((a, b) :: m) = true ↔
      lo ≤ a ∧ a ≤ 0xFFF ∧ b ≠ Memory.unlisted a ∧ Memory.wfFrom (a + 1) m = true := by
  simp [Memory.wfFrom, memorySize, Nat.lt_succ_iff, and_assoc]

/-- A pair that memory lists is seen by a read: a canonical memory whose addresses start above it reads otherwise. -/
theorem Memory.read_head_ne {lo a : Nat} {b : Byte} {m m' : Memory} (h : Memory.wfFrom lo ((a, b) :: m) = true)
    (h' : Memory.wfFrom (a + 1) m' = true) : Memory.read ((a, b) :: m) a ≠ Memory.read m' a := by
  rw [Memory.read_below (Nat.lt_succ_self a) h', Memory.read, if_pos rfl]
  exact (Memory.wfFrom_cons.1 h).2.2.1

/-- Below a canonical tail, the reads of the whole list determine the reads of the tail. -/
theorem Memory.read_tail_eq {a : Nat} {b b' : Byte} {m m' : Memory} (h : Memory.wfFrom (a + 1) m = true)
    (h' : Memory.wfFrom (a + 1) m' = true) {k : Nat}
    (hk : Memory.read ((a, b) :: m) k = Memory.read ((a, b') :: m') k) : m.read k = m'.read k := by
  by_cases hak : a = k
  · subst hak
    rw [Memory.read_below (Nat.lt_succ_self a) h, Memory.read_below (Nat.lt_succ_self a) h']
  · rwa [Memory.read, Memory.read, if_neg hak, if_neg hak] at hk

/-- Two lists in canonical form from `lo` on that read alike are one list, by induction on both. -/
theorem Memory.eq_of_read_eq : ∀ {m m' : Memory} {lo : Nat}, Memory.wfFrom lo m = true → Memory.wfFrom lo m' = true →
    (∀ a, a ≤ 0xFFF → m.read a = m'.read a) → m = m'
  | [], [], _, _, _, _ => rfl
  | [], (a, b) :: m', _, _, h', hread => by
    obtain ⟨-, ha, -, -⟩ := Memory.wfFrom_cons.1 h'
    exact absurd (hread a ha).symm (Memory.read_head_ne h' rfl)
  | (a, b) :: m, [], _, h, _, hread => by
    obtain ⟨-, ha, -, -⟩ := Memory.wfFrom_cons.1 h
    exact absurd (hread a ha) (Memory.read_head_ne h rfl)
  | (a, b) :: m, (a', b') :: m', _, h, h', hread => by
    obtain ⟨-, ha, hb, hm⟩ := Memory.wfFrom_cons.1 h
    obtain ⟨-, ha', hb', hm'⟩ := Memory.wfFrom_cons.1 h'
    rcases Nat.lt_trichotomy a a' with hlt | rfl | hgt
    · exact absurd (hread a ha) (Memory.read_head_ne h (Memory.wfFrom_cons.2 ⟨hlt, ha', hb', hm'⟩))
    · have hbb : b = b' := by simpa [Memory.read] using hread a ha
      rw [hbb, Memory.eq_of_read_eq hm hm' fun k hk => Memory.read_tail_eq hm hm' (hread k hk)]
    · exact absurd (hread a' ha').symm (Memory.read_head_ne h' (Memory.wfFrom_cons.2 ⟨hgt, ha, hb, hm⟩))

/-- Settles O30 (log entry 12). -/
theorem equalMemoriesAreEqualData : Obligations.EqualMemoriesAreEqualData :=
  fun _ _ h h' hread => Memory.eq_of_read_eq h h' hread

theorem Memory.read_writeBytes_inside {m : Memory} {a : Nat} {bs : List Byte} (hm : m.wf = true)
    (hr : a + bs.length ≤ memorySize) {k : Nat} (hk : k < bs.length) : (m.writeBytes a bs).read (a + k) = bs[k] := by
  rw [Memory.read_writeBytes bs hm hr, dif_pos ⟨by omega, by omega⟩]
  simp

theorem Memory.read_writeBytes_outside {m : Memory} {a : Nat} {bs : List Byte} (hm : m.wf = true)
    (hr : a + bs.length ≤ memorySize) {a' : Nat} (ha' : a' < a ∨ a + bs.length ≤ a') :
    (m.writeBytes a bs).read a' = m.read a' := by
  rw [Memory.read_writeBytes bs hm hr, dif_neg (by omega)]

/-! The range check and the font policy, in the terms of the statements. -/

theorem outOfRange_eq_false_iff (s : State) (m : Nat) : outOfRange s.idx m = false ↔ inRange s m := by
  rw [outOfRange_eq_false, inRange, memorySize]
  omega

theorem end_le_of_inRange {s : State} {m : Nat} (h : inRange s m) (hm : 0 < m) : s.idx.toNat + m ≤ memorySize := by
  rw [inRange] at h
  rw [memorySize]
  omega

theorem outOfRange_of_not_inRange {s : State} {m : Nat} (h : ¬ inRange s m) : outOfRange s.idx m = true := by
  rwa [← outOfRange_eq_false_iff, Bool.not_eq_false] at h

theorem fontAllows_iff (s : State) (m : Nat) :
    fontAllows s m ↔ ¬(s.params.fontWritePolicy = .fault ∧ meetsFont s.idx m = true) := by
  rw [meetsFont_eq_true, fontAllows]
  cases s.params.fontWritePolicy
  · simp only [reduceCtorEq, false_or, true_and, not_exists, not_and]
    exact forall₂_congr fun k _ => by omega
  · simp

theorem State.storeAtI_of_fontAllows {s : State} {bs : List Byte} (hr : inRange s bs.length)
    (hf : fontAllows s bs.length) : s.storeAtI bs = .ok { s with mem := s.mem.writeBytes s.idx.toNat bs } :=
  State.storeAtI_of_allowed ((outOfRange_eq_false_iff s _).2 hr) ((fontAllows_iff s _).1 hf)

theorem State.storeAtI_of_not_inRange {s : State} {bs : List Byte} (hr : ¬ inRange s bs.length) :
    s.storeAtI bs = .error .addressError := State.storeAtI_of_outOfRange (outOfRange_of_not_inRange hr)

theorem State.storeAtI_of_not_fontAllows {s : State} {bs : List Byte} (hr : inRange s bs.length)
    (hf : ¬ fontAllows s bs.length) : s.storeAtI bs = .error .fontRegionWrite :=
  State.storeAtI_of_font ((outOfRange_eq_false_iff s _).2 hr) (not_not.1 (mt (fontAllows_iff s _).2 hf))

@[simp] theorem length_decimalDigits (v : Byte) : (decimalDigits v).length = 3 := rfl

/-- Rule R220: the three bytes that FX33 stores, as numbers. -/
theorem decimalDigits_toNat (v : Byte) :
    ((decimalDigits v)[0]).toNat = v.toNat / 100 ∧ ((decimalDigits v)[1]).toNat = v.toNat / 10 % 10 ∧
      ((decimalDigits v)[2]).toNat = v.toNat % 10 := by
  simp only [decimalDigits, List.getElem_cons_zero, List.getElem_cons_succ, BitVec.toNat_ofNat]
  omega

/-- Settles O24 (rule R220): one store of the three digits. -/
theorem decimalDigitsAreStored : Obligations.DecimalDigitsAreStored := by
  intro x s hm
  refine ⟨rfl, fun hr => ?_, fun hr hf => ?_, fun hr hf => ?_⟩
  · simp only [exec, execLdB, State.storeAtI_of_not_inRange (bs := decimalDigits (s.getV x)) hr]; rfl
  · simp only [exec, execLdB, State.storeAtI_of_not_fontAllows (bs := decimalDigits (s.getV x)) hr hf]; rfl
  · have hend : s.idx.toNat + (decimalDigits (s.getV x)).length ≤ memorySize := end_le_of_inRange hr (Nat.zero_lt_succ 2)
    have hread (k : Nat) (hk : k < 3) := Memory.read_writeBytes_inside hm hend (k := k) hk
    obtain ⟨hundreds, tens, ones⟩ := decimalDigits_toNat (s.getV x)
    refine ⟨{ s with mem := s.mem.writeBytes s.idx.toNat (decimalDigits (s.getV x)) }, ?_, ?_, ?_, ?_, ?_, rfl⟩
    · simp only [exec, execLdB, State.storeAtI_of_fontAllows (bs := decimalDigits (s.getV x)) hr hf]; rfl
    · rw [← hundreds, ← hread 0 (by decide), Nat.add_zero]
    · rw [← tens, ← hread 1 (by decide)]
    · rw [← ones, ← hread 2 (by decide)]
    · intro a ha
      refine Memory.read_writeBytes_outside hm hend ?_
      rw [length_decimalDigits]
      omega

theorem State.length_firstRegs (s : State) {n : Nat} (h : n ≤ 16) : (s.firstRegs n).length = n := by
  simp [State.firstRegs, h]

/-- Rule R221: the memory increment, in the terms of the statements. -/
theorem State.applyMemInc_eq (s : State) (x : Nibble) : s.applyMemInc x = { s with idx := indexAfter s x } := by
  unfold State.applyMemInc indexAfter
  cases s.quirks.memInc <;> rfl

/-- Settles O25 (rules R221, R222): one store of the registers up to `x`, then the memory increment. -/
theorem bulkStoreWritesV0ToVx : Obligations.BulkStoreWritesV0ToVx := by
  intro x s hm
  have hlen : (s.firstRegs (x.toNat + 1)).length = x.toNat + 1 := s.length_firstRegs x.isLt
  rw [← hlen]
  refine ⟨rfl, fun hr => ?_, fun hr hf => ?_, fun hr hf => ?_⟩
  · simp only [exec, execStoreRegs, State.storeAtI_of_not_inRange hr]; rfl
  · simp only [exec, execStoreRegs, State.storeAtI_of_not_fontAllows hr hf]; rfl
  · have hend : s.idx.toNat + (s.firstRegs (x.toNat + 1)).length ≤ memorySize := end_le_of_inRange hr (by omega)
    refine ⟨{ s with mem := s.mem.writeBytes s.idx.toNat (s.firstRegs (x.toNat + 1)), idx := indexAfter s x }, ?_, ?_,
      ?_, rfl⟩
    · simp only [exec, execStoreRegs, State.storeAtI_of_fontAllows hr hf, State.applyMemInc_eq]; rfl
    · intro k hk
      rw [Memory.read_writeBytes_inside hm hend (by omega)]
      simp [State.firstRegs, State.getV]
    · intro a ha
      exact Memory.read_writeBytes_outside hm hend (by omega)

/-- Settles O26 (rules R221, R223): the loaded bytes fill the registers up to `x`, then the memory increment. -/
theorem bulkLoadFillsV0ToVx : Obligations.BulkLoadFillsV0ToVx := by
  intro x s
  refine ⟨rfl, fun hr => ?_, fun hr => ?_⟩
  · simp only [exec, execLoadRegs, State.loadAtI_of_outOfRange (outOfRange_of_not_inRange hr)]; rfl
  · refine ⟨{ s with v := fillRegs s.v 0 (s.mem.readBytes s.idx.toNat (x.toNat + 1)), idx := indexAfter s x }, ?_, ?_,
      rfl⟩
    · simp only [exec, execLoadRegs, State.loadAtI_of_inRange ((outOfRange_eq_false_iff s _).2 hr),
        State.applyMemInc_eq]
      rfl
    · intro k
      simp only [State.getV, fillRegs_getElem, Memory.length_readBytes, Memory.getElem_readBytes, Nat.zero_add,
        Nat.sub_zero, Nat.zero_le, true_and, Nat.lt_succ_iff]
      rfl

end Sys2Proof.Machine
end

section
/-! PROOFS. The index register: FX1E and FX29 (rules R64, R218, R219). -/

namespace Sys2Proof.Machine

open Sys2Proof.Claims

/-- Settles O22 (rule R218): the write of `I`, then the flag on the integer sum. -/
theorem addIndexFlagsTwelveBitOverflow : Obligations.AddIndexFlagsTwelveBitOverflow := by
  intro x s
  refine ⟨rfl, (s.setI (BitVec.ofNat 16 (indexSum s.idx (s.getV x)))).writeIndexFlag (indexSum s.idx (s.getV x)), rfl, ?_,
    ?_, fun k hk => ?_, ?_⟩
  · rw [State.writeIndexFlag_frame]
    simp [indexSum]
  · rw [State.getV_writeIndexFlag, if_pos rfl]
    rfl
  · rw [State.getV_writeIndexFlag, if_neg hk]
    rfl
  · rw [State.writeIndexFlag_frame]
    rfl

/-- Rule R64: the address of a glyph fits in 16 bits for every register value. -/
theorem toNat_glyphAddress {d : Nat} (h : d < 256) : (glyphAddress d).toNat = 0x050 + 5 * d := by
  rw [glyphAddress, BitVec.toNat_ofNat, fontBase]
  omega

/-- Rule R219: the digit that FX29 takes, where the policy lets it complete. -/
theorem State.glyphOf_of_allowed {s : State} {v : Byte} (h : v.toNat ≤ 15 ∨ s.params.glyphDigitPolicy ≠ .fault) :
    s.glyphOf v =
      .ok (glyphAddress (if s.params.glyphDigitPolicy = .unmasked then v.toNat else v.toNat % 16)) := by
  unfold State.glyphOf
  by_cases hv : v.toNat ≤ 15
  · rw [if_pos hv, Nat.mod_eq_of_lt (by omega), ite_self]
  · rw [if_neg hv]
    cases hp : s.params.glyphDigitPolicy with
    | fault => exact absurd hp (h.resolve_left hv)
    | maskLowNibble => simp only [reduceCtorEq, if_false, toNat_lowNibble]
    | unmasked => rfl

theorem State.glyphOf_of_fault {s : State} {v : Byte} (hv : 15 < v.toNat) (hp : s.params.glyphDigitPolicy = .fault) :
    s.glyphOf v = .error .glyphDigitRange := by
  rw [State.glyphOf, if_neg (by omega), hp]

/-- Settles O23 (rule R219). -/
theorem glyphAddressOfDigit : Obligations.GlyphAddressOfDigit := by
  intro x s
  refine ⟨rfl, fun hv hp => ?_, fun h => ⟨_, by simp only [exec, execLdF, State.glyphOf_of_allowed h]; rfl, ?_, rfl⟩⟩
  · simp only [exec, execLdF, State.glyphOf_of_fault hv hp]; rfl
  · exact toNat_glyphAddress (by split_ifs <;> omega)

end Sys2Proof.Machine
end

section
/-! PROOFS. The free inputs: the random byte, the key skips, `choose` and the key wait (rules R34, R35, R182, R200 to R202,
R212 to R215). -/

namespace Sys2Proof.Machine

open Sys2Proof.Claims

/-- Rule R34: the sample `Keys` is the one named next, or the free value of this draw. -/
theorem State.sampledKeys_self (s : State) : sampledKeys s :=
  ⟨fun _ _ h => State.keys_of_cons h, State.keys_of_nil⟩

/-- Rule R35: the sample `Rand` is the one named next, or the free value of this draw. -/
theorem State.sampledRand_self (s : State) : sampledRand s :=
  ⟨fun _ _ h => State.rand_of_cons h, State.rand_of_nil⟩

/-- Settles O16 (rule R182): the sample is taken, then one register is written. -/
theorem randomIsMaskedAndFree : Obligations.RandomIsMaskedAndFree := by
  intro x nn s
  exact ⟨rfl, ⟨_, rfl, fun k => s.randTaken.getV_setV x k _, rfl⟩, s.sampledRand_self⟩

/-! The key test (rule R202), by what it answers. -/

theorem State.keyTest_of_allowed {s : State} {v : Byte} (h : v.toNat ≤ 15 ∨ s.params.keyIndexPolicy = .notHeld) :
    s.keyTest v = .ok (decide (v.toNat ≤ 15) && keyHeld s.keys v.toNat, s.keysTaken) := by
  unfold State.keyTest
  by_cases hv : v.toNat ≤ 15
  · simp [hv]
  · simp [hv, h.resolve_left hv]

theorem State.keyTest_of_fault {s : State} {v : Byte} (hv : 15 < v.toNat) (hp : s.params.keyIndexPolicy = .fault) :
    s.keyTest v = .error .keyIndexRange := by
  rw [State.keyTest, if_neg (by omega), hp]

/-- Settles O18 (rules R200 to R202). -/
theorem keySkipsTestTheSample : Obligations.KeySkipsTestTheSample := by
  intro x s
  refine ⟨rfl, rfl, s.sampledKeys_self, fun h => ?_, fun hv hp => ?_⟩
  · simp only [exec, execSkp, execSknp, State.keyTest_of_allowed h]
    have hheld : ((s.getV x).toNat ≤ 15 ∧ s.keys.getLsbD (s.getV x).toNat = true) ↔
        (decide ((s.getV x).toNat ≤ 15) && keyHeld s.keys (s.getV x).toNat) = true := by simp [keyHeld]
    refine ⟨_, _, rfl, rfl, ?_⟩
    simp only [hheld]
    cases decide ((s.getV x).toNat ≤ 15) && keyHeld s.keys (s.getV x).toNat
    · exact ⟨⟨rfl, rfl⟩, rfl, rfl⟩
    · exact ⟨⟨rfl, rfl⟩, rfl, rfl⟩
  · simp only [exec, execSkp, execSknp, State.keyTest_of_fault hv hp]
    exact ⟨rfl, rfl⟩

/-- Settles O31 (rule R213). -/
theorem chooseTakesAnyHeldKey : Obligations.ChooseTakesAnyHeldKey :=
  fun _ p hkeys => ⟨keyHeld_chooseKey p hkeys, chooseKey_of_held⟩

/-- Rule R215: the released key as the byte that FX0A writes. -/
theorem toNat_keyByte (k : KeyId) : (k.zeroExtend 8).toNat = k.toNat := BitVec.toNat_setWidth_of_le (by decide)

/-- Settles O20 (rules R212, R215), one clause per case of the key wait. -/
theorem keyWaitLatchesRewindsOrCompletes : Obligations.KeyWaitLatchesRewindsOrCompletes := by
  intro x s
  refine ⟨rfl, s.sampledKeys_self, s.keyWait x, rfl, fun hl hk => ?_, fun hl hk => ?_, fun k hl hk => ?_,
    fun k hl hk => ?_⟩
  · exact Host.Outcome.next.inj (exec_keyWait_idle x hl hk)
  · refine ⟨chooseKey s.keysTaken.choice s.keys, keyHeld_chooseKey _ hk, rfl, fun j rest hj hheld => ?_,
      Host.Outcome.next.inj (exec_keyWait_latch x hl hk)⟩
    rw [State.choice_keysTaken_of_cons hj, chooseKey_of_held hheld]
  · exact Host.Outcome.next.inj (exec_keyWait_held x hl hk)
  · have hw : s.keyWait x = _ := Host.Outcome.next.inj (exec_keyWait_release x hl hk)
    rw [hw]
    refine ⟨fun j => ?_, rfl⟩
    calc ((s.keysTaken.setV x (k.zeroExtend 8)).getV j).toNat
        = (if j = x then k.zeroExtend 8 else s.getV j).toNat := by rw [State.getV_setV]; rfl
      _ = if j = x then k.toNat else (s.getV j).toNat := by rw [apply_ite BitVec.toNat, toNat_keyByte]

/-- Settles O32 (rule R214): the second call finds the key latched, and the sample says whether it is still held. -/
theorem keyWaitCompletesOnRelease : Obligations.KeyWaitCompletesOnRelease := by
  intro x s t hl hk ht
  have hfields : t.advance.pc = s.pc ∧ t.pc = s.pc - 2 ∧ t.latch = some (chooseKey s.keysTaken.choice s.keys) ∧
      t.v = s.v := by
    rw [exec_keyWait_latch x hl hk] at ht
    cases ht
    exact ⟨BitVec.sub_add_cancel s.pc 2, rfl, rfl, rfl⟩
  obtain ⟨hadv, hpc, hlatch, hv⟩ := hfields
  refine ⟨hpc, _, hlatch, keyHeld_chooseKey _ hk, fun hrel => ?_, fun hheld => ?_⟩
  · refine ⟨_, exec_keyWait_release (s := t.advance) x hlatch hrel, ?_, rfl, hadv⟩
    exact (congrArg BitVec.toNat (State.getV_setV_same _ x _)).trans (toNat_keyByte _)
  · exact ⟨_, exec_keyWait_held (s := t.advance) x hlatch hheld, congrArg (· - 2) hadv, hlatch, hv⟩

end Sys2Proof.Machine
end

section
/-! PROOFS. The sprite draw, cell by cell, and the same draw twice (rules R190 to R195). -/

namespace Sys2Proof.Machine

open Sys2Proof.Claims

/-- The state after DXYN, in range (rule R190). -/
def State.drawn (s : State) (x y n : Nibble) : State :=
  s.draw ((s.getV x).toNat % 64) ((s.getV y).toNat % 32) (s.mem.readBytes s.idx.toNat n.toNat)

/-- The draw inverts a cell that is set (rule R190). -/
def collides (s : State) (x y n : Nibble) : Prop :=
  ∃ (r : Fin 32) (c : Nat), c < 64 ∧ toggles s x y n r.val c = true ∧ s.fb.pixel r c = true

theorem exec_drw_of_inRange {s : State} (x y : Nibble) {n : Nibble} (h : inRange s n.toNat) :
    exec (.drw x y n) s = .next (s.drawn x y n) := by
  simp only [exec, execDrw, State.loadAtI_of_inRange ((outOfRange_eq_false_iff s _).2 h)]; rfl

theorem exec_drw_of_not_inRange {s : State} (x y : Nibble) {n : Nibble} (h : ¬ inRange s n.toNat) :
    exec (.drw x y n) s = .next (raised s .addressError (hexWord 0xD x y n)) := by
  simp only [exec, execDrw, State.loadAtI_of_outOfRange (outOfRange_of_not_inRange h)]; rfl

/-- Rules R190, R193: the bits of the sprite's row in display row `r` are the cells that the draw toggles there. -/
theorem getMsbD_maskRow_eq_toggles (s : State) (x y n : Nibble) (r : Nat) {c : Nat} (hc : c < 64) :
    (maskRow ((s.getV x).toNat % 64) ((s.getV y).toNat % 32) (s.mem.readBytes s.idx.toNat n.toNat) r).getMsbD c =
      toggles s x y n r c := by
  rw [getMsbD_maskRow _ _ _ _ _ hc, Memory.length_readBytes, toggles]
  by_cases hr : r - (s.getV y).toNat % 32 < n.toNat
  · rw [List.getD_eq_getElem _ _ (by simpa using hr), Memory.getElem_readBytes]
  · have hout : ¬((s.getV y).toNat % 32 ≤ r ∧ r < (s.getV y).toNat % 32 + n.toNat ∧ (s.getV x).toNat % 64 ≤ c ∧
        c < (s.getV x).toNat % 64 + 8) := by omega
    simp only [hout, decide_false, Bool.false_and]

/-- Two display rows share a set bit exactly where some column shows it in both. -/
theorem row_and_ne_zero_iff (a b : BitVec 64) :
    a &&& b ≠ 0 ↔ ∃ c, c < 64 ∧ b.getMsbD c = true ∧ a.getMsbD c = true := by
  constructor
  · intro h
    by_contra hc
    refine h (BitVec.eq_of_getMsbD_eq fun c hlt => ?_)
    simpa using fun ha hb => hc ⟨c, hlt, hb, ha⟩
  · rintro ⟨c, -, hb, ha⟩ h
    have hand := congrArg (BitVec.getMsbD · c) h
    simp [ha, hb] at hand

theorem State.drawn_pixel (s : State) (x y n : Nibble) (r : Fin 32) {c : Nat} (hc : c < 64) :
    (s.drawn x y n).fb.pixel r c = (s.fb.pixel r c ^^ toggles s x y n r.val c) := by
  rw [← getMsbD_maskRow_eq_toggles s x y n r hc]
  simp only [State.drawn, State.draw, Framebuffer.pixel, State.emit_fb, State.setV_fb, State.setFb_fb,
    drawRows_getElem, BitVec.getMsbD_xor]

theorem spriteMask_pixel (s : State) (x y n : Nibble) (r : Fin 32) {c : Nat} (hc : c < 64) :
    (spriteMask ((s.getV x).toNat % 64) ((s.getV y).toNat % 32) (s.mem.readBytes s.idx.toNat n.toNat)).pixel r c =
      toggles s x y n r.val c := by
  rw [← getMsbD_maskRow_eq_toggles s x y n r hc, Framebuffer.pixel, spriteMask_getElem]

/-- Rule R190: the collision flag of the row-wise draw. -/
theorem drawRows_coll_iff (s : State) (x y n : Nibble) :
    (drawRows ((s.getV x).toNat % 64) ((s.getV y).toNat % 32) s.fb false (s.mem.readBytes s.idx.toNat n.toNat)).2 = true ↔
      collides s x y n := by
  simp only [drawRows_coll, Bool.false_eq_true, false_or, row_and_ne_zero_iff, collides]
  constructor
  · rintro ⟨r, hr, c, hc, hmask, hset⟩
    exact ⟨⟨r, hr⟩, c, hc, by rwa [← getMsbD_maskRow_eq_toggles s x y n r hc], hset⟩
  · rintro ⟨r, c, hc, htoggle, hset⟩
    exact ⟨r.val, r.isLt, c, hc, by rwa [getMsbD_maskRow_eq_toggles s x y n r hc], hset⟩

theorem State.drawn_getV_vf (s : State) (x y n : Nibble) :
    (s.drawn x y n).getV 0xF#4 = flagByte (drawRows ((s.getV x).toNat % 64) ((s.getV y).toNat % 32) s.fb false
      (s.mem.readBytes s.idx.toNat n.toNat)).2 :=
  State.getV_setV_same _ vfIndex _

theorem State.drawn_getV_of_ne (s : State) (x y n : Nibble) {k : Nibble} (hk : k ≠ 0xF#4) :
    (s.drawn x y n).getV k = s.getV k :=
  State.getV_setV_ne (s.setFb _) _ hk

theorem flagByte_eq_one_iff (b : Bool) : flagByte b = 1 ↔ b = true := by cases b <;> decide

/-- Rule R190: VF ends as 1 where the draw collides. -/
theorem State.drawn_vf_eq_one_iff (s : State) (x y n : Nibble) :
    (s.drawn x y n).getV 0xF#4 = 1 ↔ collides s x y n := by
  rw [s.drawn_getV_vf, flagByte_eq_one_iff, drawRows_coll_iff]

theorem State.drawn_vf_eq_zero {s : State} {x y n : Nibble} (h : ¬ collides s x y n) :
    (s.drawn x y n).getV 0xF#4 = 0 := by
  rw [s.drawn_getV_vf, Bool.eq_false_iff.2 (mt (drawRows_coll_iff s x y n).1 h)]; rfl

/-- Settles O17 (rules R190, R193, R194). -/
theorem drawTogglesCellsAndReportsCollision : Obligations.DrawTogglesCellsAndReportsCollision := by
  intro x y n s
  refine ⟨rfl, exec_drw_of_not_inRange x y, fun h => ⟨s.drawn x y n, _, exec_drw_of_inRange x y h,
    fun r c hc => s.drawn_pixel x y n r hc, fun r c hc => spriteMask_pixel s x y n r hc,
    (s.drawn_vf_eq_one_iff x y n).2, fun hclear => s.drawn_vf_eq_zero ?_, fun k hk => s.drawn_getV_of_ne x y n hk, rfl⟩⟩
  rintro ⟨r, c, hc, htoggle, hset⟩
  rw [hclear r c hc htoggle] at hset
  cases hset

/-- Rule R190: which cells a draw toggles depends on the two registers, `I` and memory alone. -/
theorem toggles_congr {s u : State} {x y : Nibble} (n : Nibble) (hx : u.getV x = s.getV x) (hy : u.getV y = s.getV y)
    (hidx : u.idx = s.idx) (hmem : u.mem = s.mem) : toggles u x y n = toggles s x y n := by
  funext r c
  simp only [toggles, hx, hy, hidx, hmem]

/-- Settles O33 (rule R195): the second draw toggles the same cells, so each is as it was, and it meets a set cell where
the first one set it. -/
theorem doubleDrawRestoresTheShadow : Obligations.DoubleDrawRestoresTheShadow := by
  intro x y n s t u hxF hyF hr ht hfb hidx hmem hx hy
  rw [exec_drw_of_inRange x y hr] at ht
  cases ht
  rw [s.drawn_getV_of_ne x y n hxF] at hx
  rw [s.drawn_getV_of_ne x y n hyF] at hy
  have htoggles : toggles u x y n = toggles s x y n := toggles_congr n hx hy hidx hmem
  have hpixel (r : Fin 32) {c : Nat} (hc : c < 64) : u.fb.pixel r c = (s.fb.pixel r c ^^ toggles s x y n r.val c) := by
    rw [hfb, s.drawn_pixel x y n r hc]
  have hru : inRange u n.toNat := by rw [inRange, hidx]; exact hr
  refine ⟨u.drawn x y n, exec_drw_of_inRange x y hru, Framebuffer.ext_pixel fun r c hc => ?_, ?_⟩
  · rw [u.drawn_pixel x y n r hc, hpixel r hc, htoggles, Bool.xor_assoc, Bool.xor_self, Bool.xor_false]
  · rw [u.drawn_vf_eq_one_iff, collides, htoggles]
    refine exists₂_congr fun r c => and_congr_right fun hc => and_congr_right fun htoggle => ?_
    rw [hpixel r hc, htoggle, Bool.xor_true, Bool.not_eq_true']

end Sys2Proof.Machine
end

section
/-! PROOFS. The row-wise draw against the cell-by-cell loop of the rule (rule R190). -/

namespace Sys2Proof.Machine

open Sys2Proof.Claims

/-- Rule R190's loop over one row: the sprite byte `b` in display row `y`, rows past 31 dropped. -/
def drawRow (x0 y : Nat) (b : Byte) (d : Framebuffer × Bool) : Framebuffer × Bool :=
  if h : y < 32 then (d.1.set y (d.1[y] ^^^ spriteRow x0 b) h, d.2 || (d.1[y] &&& spriteRow x0 b) != 0) else d

/-- The last row of a sprite is drawn on what the rows before it leave. -/
theorem drawRows_concat (x0 : Nat) (b : Byte) : ∀ (bs : List Byte) (y : Nat) (fb : Framebuffer) (coll : Bool),
    drawRows x0 y fb coll (bs ++ [b]) = drawRow x0 (y + bs.length) b (drawRows x0 y fb coll bs)
  | [], y, fb, coll => by simp [drawRows, drawRow]
  | b' :: bs, y, fb, coll => by
    rw [List.cons_append, drawRows, drawRows, List.length_cons]
    split
    · rw [drawRows_concat x0 b bs, Nat.add_right_comm, Nat.add_assoc]
    · rw [drawRow, dif_neg (by omega)]

theorem Memory.readBytes_succ (m : Memory) : ∀ (n a : Nat), m.readBytes a (n + 1) = m.readBytes a n ++ [m.read (a + n)]
  | 0, a => rfl
  | n + 1, a => by
    rw [Memory.readBytes, Memory.readBytes_succ m n (a + 1), Memory.readBytes, List.cons_append, Nat.add_right_comm,
      Nat.add_assoc]

theorem getMsbD_cellBit {c c' : Nat} (hc : c < 64) (hc' : c' < 64) :
    (1#64 <<< (63 - c)).getMsbD c' = decide (c' = c) := by
  rw [BitVec.getMsbD_eq_getLsbD, BitVec.getLsbD_shiftLeft, BitVec.getLsbD_one, Bool.eq_iff_iff]
  simp only [Bool.and_eq_true, Bool.not_eq_true', decide_eq_true_eq, decide_eq_false_iff_not]
  omega

theorem flipCell_pixel (fb : Framebuffer) (row : Fin 32) {c : Nat} (hc : c < 64) (r : Fin 32) {c' : Nat} (hc' : c' < 64) :
    (flipCell fb row c).pixel r c' = (fb.pixel r c' ^^ decide (r = row ∧ c' = c)) := by
  by_cases hr : r = row
  · subst hr
    simp [flipCell, Framebuffer.pixel, -BitVec.getMsbD_shiftLeft, getMsbD_cellBit hc hc']
  · have hne : row.val ≠ r.val := fun e => hr (Fin.ext e.symm)
    simp [flipCell, Framebuffer.pixel, hr, hne]

/-! One iteration of the inner loop, in row `row` of the display. -/

theorem drawCell_pixel (x0 y0 : Nat) (b : Byte) {r : Nat} (hr : y0 + r < 32) (d : Framebuffer × Bool) (c : Nat)
    (r' : Fin 32) {c' : Nat} (hc' : c' < 64) :
    (drawCell x0 y0 b r d c).1.pixel r' c' =
      (d.1.pixel r' c' ^^ (decide (r' = ⟨y0 + r, hr⟩ ∧ c' = x0 + c) && b.getLsbD (7 - c))) := by
  unfold drawCell
  split
  case isTrue h => rw [flipCell_pixel _ _ h.2.1 _ hc', h.1, Bool.and_true]
  case isFalse h =>
    have hno : (decide (r' = ⟨y0 + r, hr⟩ ∧ c' = x0 + c) && b.getLsbD (7 - c)) = false := by
      refine Bool.eq_false_iff.2 fun hcon => ?_
      rw [Bool.and_eq_true, decide_eq_true_eq] at hcon
      obtain ⟨⟨-, hcol⟩, hbit⟩ := hcon
      exact h ⟨hbit, hcol ▸ hc', hr⟩
    rw [hno, Bool.xor_false]

theorem drawCell_coll (x0 y0 : Nat) (b : Byte) {r : Nat} (hr : y0 + r < 32) (d : Framebuffer × Bool) (c : Nat) :
    (drawCell x0 y0 b r d c).2 = (d.2 || (b.getLsbD (7 - c) && d.1.pixel ⟨y0 + r, hr⟩ (x0 + c))) := by
  unfold drawCell
  split
  case isTrue h => rw [h.1, Bool.true_and]
  case isFalse h =>
    by_cases hcol : x0 + c < 64
    · have hbit : b.getLsbD (7 - c) = false := Bool.eq_false_iff.2 fun hbit => h ⟨hbit, hcol, hr⟩
      rw [hbit, Bool.false_and, Bool.or_false]
    · rw [Framebuffer.pixel_of_ge _ _ (Nat.not_lt.1 hcol), Bool.and_false, Bool.or_false]

/-! The first `m` iterations of the inner loop. -/

/-- The inner loop stopped after `m` columns. -/
def drawCells (x0 y0 : Nat) (b : Byte) (r m : Nat) (d : Framebuffer × Bool) : Framebuffer × Bool :=
  (List.range m).foldl (drawCell x0 y0 b r) d

theorem drawCells_succ (x0 y0 : Nat) (b : Byte) (r m : Nat) (d : Framebuffer × Bool) :
    drawCells x0 y0 b r (m + 1) d = drawCell x0 y0 b r (drawCells x0 y0 b r m d) m := by
  simp only [drawCells, List.range_succ, List.foldl_append, List.foldl_cons, List.foldl_nil]

theorem drawCells_below (x0 y0 : Nat) (b : Byte) {r : Nat} (hr : ¬ y0 + r < 32) (m : Nat) (d : Framebuffer × Bool) :
    drawCells x0 y0 b r m d = d := by
  induction m with
  | zero => rfl
  | succ m ih => rw [drawCells_succ, ih, drawCell, dif_neg fun h => hr h.2.2]

theorem drawCells_pixel (x0 y0 : Nat) (b : Byte) {r : Nat} (hr : y0 + r < 32) (m : Nat) (d : Framebuffer × Bool)
    (r' : Fin 32) {c' : Nat} (hc' : c' < 64) :
    (drawCells x0 y0 b r m d).1.pixel r' c' =
      (d.1.pixel r' c' ^^
        (decide (r' = ⟨y0 + r, hr⟩) && (decide (x0 ≤ c' ∧ c' < x0 + m) && b.getLsbD (7 - (c' - x0))))) := by
  induction m with
  | zero =>
    have hno : ¬(x0 ≤ c' ∧ c' < x0 + 0) := by omega
    rw [decide_eq_false hno, Bool.false_and, Bool.and_false, Bool.xor_false]
    rfl
  | succ m ih =>
    rw [drawCells_succ, drawCell_pixel x0 y0 b hr _ _ _ hc', ih, Bool.xor_assoc]
    congr 1
    by_cases hcol : c' = x0 + m
    · simp [hcol]
    · have hiff : (x0 ≤ c' ∧ c' < x0 + (m + 1)) ↔ (x0 ≤ c' ∧ c' < x0 + m) := by omega
      simp only [hcol, hiff, and_false, decide_false, Bool.false_and, Bool.xor_false]

/-- Each iteration tests a cell that the ones before it left alone. -/
theorem drawCells_coll (x0 y0 : Nat) (b : Byte) {r : Nat} (hr : y0 + r < 32) (m : Nat) (d : Framebuffer × Bool) :
    (drawCells x0 y0 b r m d).2 = true ↔
      d.2 = true ∨ ∃ c, c < m ∧ b.getLsbD (7 - c) = true ∧ d.1.pixel ⟨y0 + r, hr⟩ (x0 + c) = true := by
  induction m with
  | zero => simp [drawCells]
  | succ m ih =>
    have hcell : (drawCells x0 y0 b r m d).1.pixel ⟨y0 + r, hr⟩ (x0 + m) = d.1.pixel ⟨y0 + r, hr⟩ (x0 + m) := by
      by_cases hcol : x0 + m < 64
      · simp [drawCells_pixel x0 y0 b hr m d _ hcol]
      · rw [Framebuffer.pixel_of_ge _ _ (Nat.not_lt.1 hcol), Framebuffer.pixel_of_ge _ _ (Nat.not_lt.1 hcol)]
    rw [drawCells_succ, drawCell_coll x0 y0 b hr, hcell, Bool.or_eq_true, Bool.and_eq_true, ih, or_assoc]
    refine or_congr_right ⟨?_, ?_⟩
    · rintro (⟨c, hc, h⟩ | h)
      · exact ⟨c, Nat.lt_succ_of_lt hc, h⟩
      · exact ⟨m, Nat.lt_succ_self m, h⟩
    · rintro ⟨c, hc, h⟩
      rcases Nat.lt_succ_iff_lt_or_eq.1 hc with hlt | rfl
      · exact .inl ⟨c, hlt, h⟩
      · exact .inr h

/-! The row-wise step. -/

theorem drawRow_pixel (x0 : Nat) {y : Nat} (hy : y < 32) (b : Byte) (d : Framebuffer × Bool) (r' : Fin 32) {c' : Nat}
    (hc' : c' < 64) :
    (drawRow x0 y b d).1.pixel r' c' =
      (d.1.pixel r' c' ^^
        (decide (r' = ⟨y, hy⟩) && (decide (x0 ≤ c' ∧ c' < x0 + 8) && b.getLsbD (7 - (c' - x0))))) := by
  rw [← getMsbD_spriteRow x0 b c' hc', drawRow, dif_pos hy]
  by_cases hr : r' = ⟨y, hy⟩
  · subst hr
    simp [Framebuffer.pixel]
  · have hne : y ≠ r'.val := fun e => hr (Fin.ext e.symm)
    simp [Framebuffer.pixel, hr, hne]

theorem drawRow_coll (x0 : Nat) {y : Nat} (hy : y < 32) (b : Byte) (d : Framebuffer × Bool) :
    (drawRow x0 y b d).2 = true ↔
      d.2 = true ∨ ∃ c, c < 8 ∧ b.getLsbD (7 - c) = true ∧ d.1.pixel ⟨y, hy⟩ (x0 + c) = true := by
  rw [drawRow, dif_pos hy, Bool.or_eq_true, bne_iff_ne, row_and_ne_zero_iff]
  refine or_congr_right ⟨?_, ?_⟩
  · rintro ⟨c', hc', hsprite, hset⟩
    rw [getMsbD_spriteRow x0 b c' hc', Bool.and_eq_true, decide_eq_true_eq] at hsprite
    obtain ⟨⟨hge, hlt⟩, hbit⟩ := hsprite
    exact ⟨c' - x0, by omega, hbit, by rwa [Nat.add_sub_cancel' hge]⟩
  · rintro ⟨c, hc, hbit, hset⟩
    have hcol : x0 + c < 64 := by
      by_contra hcon
      rw [Framebuffer.pixel_of_ge _ _ (Nat.not_lt.1 hcon)] at hset
      cases hset
    refine ⟨x0 + c, hcol, ?_, hset⟩
    rw [getMsbD_spriteRow x0 b _ hcol, Nat.add_sub_cancel_left, hbit]
    simp [hc]

/-- The inner loop over the eight columns is the row-wise step. -/
theorem drawCells_eight (x0 y0 : Nat) (b : Byte) (r : Nat) (d : Framebuffer × Bool) :
    drawCells x0 y0 b r 8 d = drawRow x0 (y0 + r) b d := by
  by_cases hr : y0 + r < 32
  · refine Prod.ext (Framebuffer.ext_pixel fun r' c' hc' => ?_) (Bool.eq_iff_iff.2 ?_)
    · rw [drawCells_pixel x0 y0 b hr 8 d r' hc', drawRow_pixel x0 hr b d r' hc']
    · rw [drawCells_coll x0 y0 b hr, drawRow_coll x0 hr]
  · rw [drawCells_below x0 y0 b hr, drawRow, dif_neg hr]

/-- Rule R190: the two loops compute the row-wise draw, by induction on the number of rows. -/
theorem drawLoop_eq_drawRows (s : State) (x0 y0 n : Nat) :
    drawLoop s x0 y0 n = drawRows x0 y0 s.fb false (s.mem.readBytes s.idx.toNat n) := by
  induction n with
  | zero => rfl
  | succ n ih =>
    calc drawLoop s x0 y0 (n + 1)
        = drawCells x0 y0 (s.mem.read (s.idx.toNat + n)) n 8 (drawLoop s x0 y0 n) := by
          simp only [drawLoop, List.range_succ, List.foldl_append, List.foldl_cons, List.foldl_nil]; rfl
      _ = drawRow x0 (y0 + n) (s.mem.read (s.idx.toNat + n))
            (drawRows x0 y0 s.fb false (s.mem.readBytes s.idx.toNat n)) := by rw [drawCells_eight, ih]
      _ = drawRows x0 y0 s.fb false (s.mem.readBytes s.idx.toNat (n + 1)) := by
          rw [Memory.readBytes_succ, drawRows_concat, Memory.length_readBytes]

/-- Settles O34 (rule R190). -/
theorem drawRefinesTheCellLoop : Obligations.DrawRefinesTheCellLoop := by
  intro x y n s hr
  rw [drawLoop_eq_drawRows]
  exact ⟨s.drawn x y n, exec_drw_of_inRange x y hr, rfl, s.drawn_getV_vf x y n⟩

end Sys2Proof.Machine
end

section
/-! PROOFS. The step: the errors before an instruction executes, completion and halting, the frame bookkeeping (rules R100
to R109, R240 to R244, R260, R261). -/

namespace Sys2Proof.Machine

open Sys2Proof.Claims

/-- Rule R14: in the execute phase, `PC` minus 2 is the address of the instruction. -/
theorem State.advance_pc_sub (s : State) : s.advance.pc - 2 = s.pc := BitVec.add_sub_cancel s.pc 2

/-- Rule R243: an error from the execute phase leaves the state before the step, with `HALT` alone changed. -/
theorem State.advance_raiseWord (s : State) (code : ErrorCode) (w : Word) :
    s.advance.raiseWord code w = { s with halt := .halted code (some w) s.pc } := by
  rw [State.raiseWord, State.instrAddr, s.advance_pc_sub]; rfl

/-- Rule R101: the fetch error. -/
theorem step_fetchError {s : State} (hr : s.halt = .running) (hp : 4094 < s.pc.toNat) :
    step s = .next { s with halt := .halted .addressError none s.pc } := by
  simp only [step, hr, State.fetchWord_of_gt hp]; rfl

/-- Rule R96: a step on a word that names no instruction. -/
theorem step_unsupported {s : State} {r : Reject} (hr : s.halt = .running) (hp : s.pc.toNat ≤ 4094)
    (hd : decodeWord (s.mem.readWord s.pc.toNat) = .error r) :
    step s = .next { s with halt := .halted .unsupportedOpcode (some (s.mem.readWord s.pc.toNat)) s.pc } := by
  simp only [step, hr, State.fetchWord_of_le hp, hd]
  exact congrArg _ (s.advance_raiseWord .unsupportedOpcode _)

/-- Rules R106, R108: a step whose instruction completes. -/
theorem step_completed {s t : State} {i : Instr} (hr : s.halt = .running) (hp : s.pc.toNat ≤ 4094)
    (hd : decodeWord (s.mem.readWord s.pc.toNat) = .ok i) (he : exec i s.advance = .next t) (ht : t.halt = .running) :
    step s = .next t.completeCycle := by
  rw [step_decoded hr hp hd, he, finishStep, State.endStep_running ht]

/-- `HALT` is `Running` or `Halted(...)`. -/
theorem step_of_not_running {s : State} (h : s.halt ≠ .running) : step s = .fault .engineHalted := by
  cases hh : s.halt with
  | running => exact absurd hh h
  | halted c w a => exact step_halted hh

/-- Settles O40 (rules R101, R245). -/
theorem fetchAbove4094Halts : Obligations.FetchAbove4094Halts :=
  fun _ hr hp => step_fetchError hr hp

/-- Settles O41 (rules R96, R122). -/
theorem unsupportedWordsHalt : Obligations.UnsupportedWordsHalt := by
  refine ⟨unsupportedBy96_iff, ?_⟩
  rintro s w hr hp rfl hu
  obtain ⟨r, hd⟩ := (unsupportedBy96_iff _).1 hu
  exact step_unsupported hr hp hd

/-- Settles O42 (rules R100, R112): a running engine has one of the four cases of a step, a halted one has none. -/
theorem stepExistsExactlyWhileRunning : Obligations.StepExistsExactlyWhileRunning := by
  intro s
  refine ⟨⟨fun ⟨_, ht⟩ => (step_next ht).1, fun hr => ?_⟩, step_of_not_running⟩
  obtain ⟨t, ht, -⟩ := step_cases hr
  exact ⟨t, ht⟩

/-- Settles O43 (rules R104, R112): an instruction completes or raises, and either is a next state. -/
theorem everyInstructionAnswers : Obligations.EveryInstructionAnswers := by
  intro i s
  have h := exec_answers s i
  generalize exec i s = o at h
  cases h with
  | completes => exact ⟨_, rfl⟩
  | raises => exact ⟨_, rfl⟩

/-- Rule R241: an instruction that raises no error completes. -/
theorem exec_completes_of_raisedBy_nil {i : Instr} (h : raisedBy i = []) (s : State) :
    ∃ t, exec i s = .next t ∧ Completes s t := by
  have ha := exec_answers s i
  generalize exec i s = o at ha
  cases ha with
  | completes hc => exact ⟨_, rfl, hc⟩
  | raises hc => rw [h] at hc; cases hc

theorem raisedBy_of_cannotRaise {i : Instr} (h : cannotRaise i = true) : raisedBy i = [] := by
  cases i
  case ret | call | drw | skp | sknp | ldF | ldB | storeRegs | loadRegs => cases h
  all_goals rfl

/-- Settles O44 (rule R241). -/
theorem onlyListedInstructionsRaise : Obligations.OnlyListedInstructionsRaise := by
  refine ⟨fun i s h => ?_, fun s h => ⟨_, exec_ret_of_pos h, rfl⟩, fun s hr hp => ⟨_, step_fetchError hr hp, rfl⟩,
    fun s t _ ht u hu => ?_⟩
  · obtain ⟨t, ht, hc⟩ := exec_completes_of_raisedBy_nil (raisedBy_of_cannotRaise h) s
    exact ⟨t, ht, hc.halt⟩
  · rw [step_of_not_running ht] at hu
    cases hu

/-- Rule R240: an instruction raises an execution-time error, with a code from 3 to 9. -/
theorem number_of_raisedBy {i : Instr} {code : ErrorCode} (h : code ∈ raisedBy i) :
    3 ≤ code.number ∧ code.number ≤ 9 := by
  cases code
  case loadError | modeError => cases i <;> simp [raisedBy] at h
  all_goals decide

/-- Settles O45 (rules R105, R243), by the four cases of a step; one that completes does not halt. -/
theorem errorsArePrecise : Obligations.ErrorsArePrecise := by
  intro s t hstep ht
  obtain ⟨hr, hcase⟩ := step_next hstep
  cases hcase with
  | fetchError hp => exact ⟨.addressError, none, rfl, by decide, by decide, (if_pos hp).symm, fun _ => rfl⟩
  | unsupported hp hd =>
    refine ⟨.unsupportedOpcode, some (s.mem.readWord s.pc.toNat), s.advance_raiseWord _ _, by decide, by decide,
      (if_neg (by omega)).symm, fun h => by cases h⟩
  | raised hp hd hc =>
    obtain ⟨hge, hle⟩ := number_of_raisedBy hc
    rw [encode_of_decodeWord hd]
    exact ⟨_, some (s.mem.readWord s.pc.toNat), s.advance_raiseWord _ _, hge, hle, (if_neg (by omega)).symm,
      fun h => by cases h⟩
  | completed hp hd he hc =>
    exact absurd (hc.halt.trans hr) ht

/-- Rule R260: the number of a timer after a tick. -/
theorem toNat_countDown (b : Byte) : (countDown b).toNat = b.toNat - 1 := by
  unfold countDown
  split
  case isTrue h => rw [h]; rfl
  case isFalse h => bv_omega

/-- Rule R261: the beep level, by `BEEP_SAMPLE`. -/
theorem State.beepLevel_eq (s : State) :
    s.beepLevel =
      if s.params.beepSample = .postDecrement then decide (countDown s.st ≠ 0) else decide (s.st ≠ 0) := by
  unfold State.beepLevel
  cases s.params.beepSample <;> simp [bne, ← Bool.beq_eq_decide_eq]

/-- Settles O46 (rules R106, R108, R260, R261): the completed step ends by the frame bookkeeping, in the form of rule
R108. -/
theorem frameBookkeepingFollowsCompletion : Obligations.FrameBookkeepingFollowsCompletion := by
  intro s t i hr hp hd he ht
  have hstep : step s = .next t.completeCycle := step_completed hr hp hd he ht
  rw [hstep, completeCycle_eq]
  refine ⟨fun hne => by rw [if_neg hne], fun heq => ⟨{ t.tick with cyc := 0 }, by rw [if_pos heq], rfl,
    toNat_countDown t.dt, toNat_countDown t.st, t.beepLevel_eq, rfl, rfl⟩⟩

/-- Rules R32, R108: a step that ends running counts one cycle modulo `IPF`. -/
theorem step_cyc {s t : State} (hcyc : s.cyc < s.params.ipf) (hstep : step s = .next t) (ht : t.halt = .running) :
    t.params.ipf = s.params.ipf ∧ t.cyc = (s.cyc + 1) % s.params.ipf := by
  obtain ⟨hr, hcase⟩ := step_next hstep
  cases hcase with
  | fetchError | unsupported | raised => cases ht
  | @completed i u hp hd he hc =>
    have hparams : u.params = s.params := hc.params
    have hcyc' : u.cyc = s.cyc := hc.cyc
    refine ⟨by rw [State.completeCycle_params, hparams], ?_⟩
    rw [State.completeCycle_cyc, State.endsFrame, hparams, hcyc']
    by_cases h : s.cyc + 1 = s.params.ipf
    · simp [h]
    · rw [Nat.mod_eq_of_lt (by omega)]
      simp [h]

theorem run_succ_of_next {M : Host.Core} {s u : M.State} (n : Nat) (h : M.step s = .next u) :
    M.run (n + 1) s = M.run n u := by
  rw [Host.Core.run, h]

theorem run_succ_of_fault {M : Host.Core} {s : M.State} {f : M.Fault} (n : Nat) (h : M.step s = .fault f) :
    M.run (n + 1) s = .fault f := by
  rw [Host.Core.run, h]

/-- A run that ends running passes running states only. -/
theorem running_of_run {n : Nat} {s t : State} (h : Host.Core.run core n s = .next t) (ht : t.halt = .running) :
    s.halt = .running := by
  cases n with
  | zero => cases h; exact ht
  | succ n =>
    by_contra hs
    cases (run_succ_of_fault (M := core) n (step_of_not_running hs)).symm.trans h

/-- Settles O47 (rule R109), by induction on the length of the run. -/
theorem framesAreIpfCyclesLong : Obligations.FramesAreIpfCyclesLong := by
  intro n
  induction n with
  | zero =>
    intro s t hcyc hrun _
    cases hrun
    exact ⟨rfl, (Nat.mod_eq_of_lt hcyc).symm⟩
  | succ n ih =>
    intro s t hcyc hrun ht
    obtain ⟨u, hu, -⟩ := step_cases (running_of_run hrun ht)
    replace hrun := (run_succ_of_next (M := core) n hu).symm.trans hrun
    obtain ⟨hipf, hu_cyc⟩ := step_cyc hcyc hu (running_of_run hrun ht)
    have hbound : u.cyc < u.params.ipf := by
      rw [hipf, hu_cyc]
      exact Nat.mod_lt _ (Nat.zero_lt_of_lt hcyc)
    obtain ⟨hipf', hcyc'⟩ := ih u t hbound hrun ht
    rw [hipf', hcyc', hipf, hu_cyc, Nat.mod_add_mod, Nat.add_assoc, Nat.add_comm 1 n]
    exact ⟨rfl, rfl⟩

end Sys2Proof.Machine
end

section
/-! PROOFS. What an instruction does to the state, said once for all instructions, and what follows for every instruction:
the access table, VF, the free inputs, memory (rules R17, R22, R24, R34, R35, R42, R65, R69). -/

namespace Sys2Proof.Machine

open Sys2Proof.Claims

/-- What a completing instruction does to the state, up to the values that no general law needs. -/
def Effect (s t : State) : Instr → Prop
  | .cls => t = (s.setFb Framebuffer.blank).emit .dispClear
  | .ret => ∃ h : 0 < s.sp.val,
      t = { s with sp := ⟨s.sp.val - 1, by omega⟩, pc := s.stack[s.sp.val - 1]'(by omega) }
  | .jp nnn => t = s.setPc (addrOfImm nnn)
  | .call nnn => ∃ h : s.sp.val < 16, t =
      { s with stack := s.stack.set s.sp.val s.pc h, sp := ⟨s.sp.val + 1, by omega⟩, pc := addrOfImm nnn }
  | .seImm _ _ | .sneImm _ _ | .seReg _ _ _ | .sneReg _ _ _ => ∃ c, t = s.skipIf c
  | .ldImm x _ | .addImm x _ | .ldReg x _ | .ldVxDt x => ∃ b, t = s.setV x b
  | .orReg x _ | .andReg x _ | .xorReg x _ => ∃ r, t = s.writeLogic x r
  | .addReg x _ | .subReg x _ | .shrReg x _ | .subnReg x _ | .shlReg x _ => ∃ r f, t = s.writeRF x r f
  | .ldI nnn => t = s.setI (addrOfImm nnn)
  | .jpV0 nnn => t = s.setPc (addrOfImm nnn + (s.getV 0#4).zeroExtend 16)
  | .rnd x _ => ∃ b, t = s.randTaken.setV x b
  | .drw _ _ _ => ∃ x0 y0 bytes, t = s.draw x0 y0 bytes
  | .skp _ | .sknp _ => ∃ c, t = s.keysTaken.skipIf c
  | .ldVxK x => t = s.keyWait x
  | .ldDtVx x => t = s.setDt (s.getV x)
  | .ldStVx x => t = s.setSt (s.getV x)
  | .addI x => t = (s.setI (BitVec.ofNat 16 (indexSum s.idx (s.getV x)))).writeIndexFlag (indexSum s.idx (s.getV x))
  | .ldF _ => ∃ a, t = s.setI a
  | .ldB _ => ∃ bytes, s.storeAtI bytes = .ok t
  | .storeRegs x => ∃ bytes u, s.storeAtI bytes = .ok u ∧ t = u.applyMemInc x
  | .loadRegs x => ∃ bytes, bytes.length = x.toNat + 1 ∧ t = { s with v := fillRegs s.v 0 bytes }.applyMemInc x

/-- An outcome of an instruction: its effect, or an error, which leaves all but `PC` and `HALT` alone. -/
inductive EffectOrError (i : Instr) (s : State) : Result → Prop where
  | effect {t : State} (h : Effect s t i) : EffectOrError i s (.next t)
  | raised (code : ErrorCode) : EffectOrError i s (s.raise code i)

theorem exec_effectOrError (i : Instr) (s : State) : EffectOrError i s (exec i s) := by
  cases i
  case ret =>
    simp only [exec, execRet]
    split
    case h_1 h => obtain ⟨hs, rfl, rfl⟩ := State.pop_ok h; exact .effect ⟨hs, rfl⟩
    case h_2 => exact .raised _
  case call =>
    simp only [exec, execCall]
    split
    case h_1 h => obtain ⟨hs, rfl⟩ := State.push_ok h; exact .effect ⟨hs, rfl⟩
    case h_2 => exact .raised _
  case drw =>
    simp only [exec, execDrw]
    split
    · exact .effect ⟨_, _, _, rfl⟩
    · exact .raised _
  case skp | sknp =>
    simp only [exec, execSkp, execSknp]
    split
    case h_1 h => obtain ⟨rfl, -⟩ := State.keyTest_ok h; exact .effect ⟨_, rfl⟩
    case h_2 => exact .raised _
  case ldF =>
    simp only [exec, execLdF]
    split
    · exact .effect ⟨_, rfl⟩
    · exact .raised _
  case ldB x =>
    simp only [exec, execLdB]
    cases h : s.storeAtI (decimalDigits (s.getV x)) with
    | ok t => exact .effect ⟨_, h⟩
    | error e => exact .raised e
  case storeRegs =>
    simp only [exec, execStoreRegs]
    split
    case h_1 h => exact .effect ⟨_, _, h, rfl⟩
    case h_2 => exact .raised _
  case loadRegs =>
    simp only [exec, execLoadRegs]
    split
    case h_1 h =>
      obtain ⟨-, rfl⟩ := State.loadAtI_ok h
      exact .effect ⟨_, Memory.length_readBytes _ _ _, rfl⟩
    case h_2 => exact .raised _
  case cls | jp | ldI | jpV0 | ldVxK | ldDtVx | ldStVx | addI => exact .effect rfl
  case addReg | subReg | shrReg | subnReg | shlReg => exact .effect ⟨_, _, rfl⟩
  all_goals exact .effect ⟨_, rfl⟩

theorem exec_next {i : Instr} {s t : State} (h : exec i s = .next t) :
    Effect s t i ∨ ∃ code, t = s.raiseWord code (encode i) := by
  have ho := exec_effectOrError i s
  rw [h] at ho
  generalize hr : Host.Outcome.next t = o at ho
  cases ho with
  | effect he => cases hr; exact .inl he
  | raised code => exact .inr ⟨code, Host.Outcome.next.inj hr⟩

/-- A completing instruction has its effect: an error would leave the engine halted. -/
theorem effect_of_running {i : Instr} {s t : State} (h : exec i s = .next t) (ht : t.halt = .running) : Effect s t i := by
  obtain he | ⟨code, rfl⟩ := exec_next h
  · exact he
  · cases ht

/-! The access table (rule R42), by the frame of each instruction. -/

/-- A skip writes `PC` only. -/
theorem State.skipIf_frame (s : State) (c : Bool) : s.skipIf c = { s with pc := (s.skipIf c).pc } := by
  cases c <;> rfl

/-- Rule R221: a mode that leaves `I` unchanged. -/
theorem State.applyMemInc_of_unchanged {s : State} (h : s.quirks.memInc = .unchanged) (x : Nibble) :
    s.applyMemInc x = s := by
  rw [State.applyMemInc, h]

theorem writesOnlyListed_v (i : Instr) (s : State) (v : Vector Byte 16) : WritesOnlyListed i s { s with v := v } := by
  constructor <;> simp

theorem writesOnlyListed_store {i : Instr} {s t : State} {bytes : List Byte} (hi : ∃ x, i = .ldB x ∨ i = .storeRegs x)
    (h : s.storeAtI bytes = .ok t) : WritesOnlyListed i s t := by
  obtain ⟨-, -, rfl⟩ := State.storeAtI_ok h
  constructor <;> simp [hi]

theorem writesOnlyListed_memInc {i : Instr} {s t : State} {x : Nibble} (hi : i = .storeRegs x ∨ i = .loadRegs x)
    (h : WritesOnlyListed i s t) (hidx : t.idx = s.idx) (hquirks : t.quirks = s.quirks) :
    WritesOnlyListed i s (t.applyMemInc x) := by
  have hinc (hne : (t.applyMemInc x).idx ≠ s.idx) : s.quirks.memInc ≠ .unchanged := by
    intro hunchanged
    rw [State.applyMemInc_of_unchanged (hquirks ▸ hunchanged)] at hne
    exact hne hidx
  rw [State.applyMemInc_frame]
  exact { h with idx := fun hne => .inr ⟨x, .inr (.inr ⟨hi, hinc hne⟩)⟩ }

theorem Effect.writesOnlyListed {i : Instr} {s t : State} (h : Effect s t i) : WritesOnlyListed i s t := by
  cases i
  case cls | jp | jpV0 | ldI | ldDtVx | ldStVx =>
    subst h
    constructor <;> simp
  case ret | call =>
    obtain ⟨-, rfl⟩ := h
    constructor <;> simp
  case seImm | sneImm | seReg | sneReg | skp | sknp =>
    obtain ⟨c, rfl⟩ := h
    rw [State.skipIf_frame]
    constructor <;> simp
  case ldImm | addImm | ldReg | ldVxDt =>
    obtain ⟨b, rfl⟩ := h
    exact writesOnlyListed_v _ s _
  case orReg | andReg | xorReg =>
    obtain ⟨r, rfl⟩ := h
    rw [State.writeLogic_frame]
    exact writesOnlyListed_v _ s _
  case addReg | subReg | shrReg | subnReg | shlReg =>
    obtain ⟨r, f, rfl⟩ := h
    rw [State.writeRF_frame]
    exact writesOnlyListed_v _ s _
  case rnd | ldF =>
    obtain ⟨b, rfl⟩ := h
    constructor <;> simp
  case drw =>
    obtain ⟨x0, y0, bytes, rfl⟩ := h
    constructor <;> simp [State.draw]
  case ldVxK =>
    rw [show t = _ from h, State.keyWait_frame]
    constructor <;> simp
  case addI =>
    rw [show t = _ from h, State.writeIndexFlag_frame]
    constructor <;> simp
  case ldB x =>
    obtain ⟨bytes, hstore⟩ := h
    exact writesOnlyListed_store ⟨x, .inl rfl⟩ hstore
  case storeRegs x =>
    obtain ⟨bytes, u, hstore, rfl⟩ := h
    have hwrites := writesOnlyListed_store (i := .storeRegs x) ⟨x, .inr rfl⟩ hstore
    obtain ⟨-, -, rfl⟩ := State.storeAtI_ok hstore
    exact writesOnlyListed_memInc (.inl rfl) hwrites rfl rfl
  case loadRegs =>
    obtain ⟨bytes, -, rfl⟩ := h
    exact writesOnlyListed_memInc (.inr rfl) (writesOnlyListed_v _ s _) rfl rfl

/-- Settles O52 (rules R24, R42). -/
theorem instructionsWriteOnlyWhatTheTableLists : Obligations.InstructionsWriteOnlyWhatTheTableLists :=
  fun _ _ _ h hhalt hr => (effect_of_running h (hhalt.trans hr)).writesOnlyListed

/-! VF (rule R22). -/

/-- The key wait writes `V[x]` and no other register. -/
theorem State.getV_keyWait_ne (s : State) {x k : Nibble} (hk : k ≠ x) : (s.keyWait x).getV k = s.getV k := by
  unfold State.keyWait
  split
  · split <;> rfl
  · split
    · rfl
    · exact State.getV_setV_ne s.keysTaken _ hk

/-- Rule R223: the registers past the bytes loaded are kept. -/
theorem fillRegs_getElem_of_ge {bytes : List Byte} {j : Nat} (v : Vector Byte 16) (hj : j < 16) (h : bytes.length ≤ j) :
    (fillRegs v 0 bytes)[j] = v[j] := by
  rw [fillRegs_getElem, dif_neg (by omega)]

theorem Effect.getV_vf {i : Instr} {s t : State} (h : Effect s t i) (hno : ¬ mayWriteVf s i) :
    t.getV 0xF#4 = s.getV 0xF#4 := by
  cases i
  case cls | jp | jpV0 | ldI | ldDtVx | ldStVx =>
    subst h
    rfl
  case ret | call =>
    obtain ⟨-, rfl⟩ := h
    rfl
  case seImm | sneImm | seReg | sneReg | skp | sknp =>
    obtain ⟨c, rfl⟩ := h
    rw [State.skipIf_frame]
    rfl
  case ldF =>
    obtain ⟨a, rfl⟩ := h
    rfl
  case ldImm | addImm | ldReg | ldVxDt | rnd =>
    obtain ⟨b, rfl⟩ := h
    exact State.getV_setV_ne _ _ (Ne.symm hno)
  case orReg | andReg | xorReg =>
    obtain ⟨r, rfl⟩ := h
    obtain ⟨hx, hquirk⟩ := not_or.1 hno
    rw [State.getV_writeLogic, if_neg hquirk, if_neg (Ne.symm hx)]
  case addReg | subReg | shrReg | subnReg | shlReg | drw => exact absurd trivial hno
  case ldVxK =>
    subst h
    exact s.getV_keyWait_ne (Ne.symm hno)
  case addI =>
    subst h
    obtain ⟨hsum, hpolicy⟩ := not_or.1 hno
    rw [State.getV_writeIndexFlag, if_pos rfl]
    exact (if_neg hsum).trans (if_neg hpolicy)
  case ldB =>
    obtain ⟨bytes, hstore⟩ := h
    obtain ⟨-, -, rfl⟩ := State.storeAtI_ok hstore
    rfl
  case storeRegs =>
    obtain ⟨bytes, u, hstore, rfl⟩ := h
    obtain ⟨-, -, rfl⟩ := State.storeAtI_ok hstore
    rw [State.applyMemInc_frame]
    rfl
  case loadRegs x =>
    obtain ⟨bytes, hlen, rfl⟩ := h
    rw [State.applyMemInc_frame]
    have hx : x.toNat ≠ 15 := fun e => hno (BitVec.eq_of_toNat_eq e)
    exact fillRegs_getElem_of_ge s.v (by decide) (by rw [hlen]; have := x.isLt; change x.toNat + 1 ≤ 15; omega)

/-- Settles O53 (rules R22, R289); an error changes no register. -/
theorem vfChangesOnlyAsListed : Obligations.VfChangesOnlyAsListed := by
  intro i s t h hne
  obtain he | ⟨code, rfl⟩ := exec_next h
  · exact not_not.1 fun hno => hne (he.getV_vf hno)
  · exact absurd rfl hne

/-! The step, from the effect of its instruction. -/

/-- Rules R106, R108: a step that ends running is an instruction's effect and the frame bookkeeping. -/
theorem step_running {s t : State} (h : step s = .next t) (ht : t.halt = .running) :
    ∃ i u, s.pc.toNat ≤ 4094 ∧ decodeWord (s.mem.readWord s.pc.toNat) = .ok i ∧ Effect s.advance u i ∧
      t = u.completeCycle := by
  obtain ⟨hr, hcase⟩ := step_next h
  cases hcase with
  | fetchError | unsupported | raised => cases ht
  | @completed i u hp hd he hc => exact ⟨i, u, hp, hd, effect_of_running he (hc.halt.trans hr), rfl⟩

/-- Rule R243: a step that halts changes `HALT` alone. -/
theorem step_halting {s t : State} (h : step s = .next t) (ht : t.halt ≠ .running) : t = { s with halt := t.halt } := by
  obtain ⟨code, word, rfl, -⟩ := errorsArePrecise s t h ht
  rfl

/-! The free inputs (rules R17, R34, R35). -/

theorem State.keyWait_inputs (s : State) (x : Nibble) : (s.keyWait x).inputs = inputsAfter s (.ldVxK x) := by
  unfold State.keyWait inputsAfter
  cases hl : s.latch with
  | none =>
    dsimp only
    by_cases hk : s.keys = 0
    · rw [if_pos hk, if_neg fun h => h.2 hk]; rfl
    · rw [if_neg hk, if_pos ⟨rfl, hk⟩]; rfl
  | some k =>
    dsimp only
    rw [if_neg (c := some k = none ∧ s.keys ≠ 0) fun h => Option.some_ne_none k h.1]
    split <;> rfl

theorem Effect.inputs {i : Instr} {s t : State} (h : Effect s t i) : t.inputs = inputsAfter s i := by
  cases i
  case skp | sknp =>
    obtain ⟨c, rfl⟩ := h
    rw [State.skipIf_frame]
    rfl
  case rnd =>
    obtain ⟨b, rfl⟩ := h
    rfl
  case ldVxK x =>
    subst h
    exact s.keyWait_inputs x
  all_goals
    by_contra hne
    simpa using h.writesOnlyListed.inputs hne

/-- The advance of `PC` does not change what an instruction takes. -/
theorem inputsAfter_advance (s : State) (i : Instr) : inputsAfter s.advance i = inputsAfter s i := rfl

/-- Settles O57 (rules R17, R34, R35, R107). -/
theorem eachStepTakesExactlyItsSamples : Obligations.EachStepTakesExactlyItsSamples := by
  refine ⟨fun s => ⟨s.sampledKeys_self, s.sampledRand_self⟩, fun s t hstep => ⟨fun ht => ?_, fun i ht hd => ?_⟩⟩
  · rw [step_halting hstep ht]
  · obtain ⟨j, u, -, hj, heffect, rfl⟩ := step_running hstep ht
    cases Except.ok.inj (hj.symm.trans hd)
    rw [State.completeCycle_inputs, heffect.inputs, inputsAfter_advance]


end Sys2Proof.Machine
end

section
/-! PROOFS. The invariant: canonical memory, the font region, the bounds of `PC` and of the return addresses (rules R23, R32,
R65, R69, R121; log entry 12). -/

namespace Sys2Proof.Machine

open Sys2Proof.Claims

/-! Memory changes by a checked store at `I` only. -/

theorem Effect.mem_cases {i : Instr} {s t : State} (h : Effect s t i) :
    t.mem = s.mem ∨ ∃ bytes u, s.storeAtI bytes = .ok u ∧ t.mem = u.mem := by
  cases i
  case ldB =>
    obtain ⟨bytes, hstore⟩ := h
    exact .inr ⟨bytes, t, hstore, rfl⟩
  case storeRegs =>
    obtain ⟨bytes, u, hstore, rfl⟩ := h
    exact .inr ⟨bytes, u, hstore, by rw [State.applyMemInc_frame]⟩
  all_goals
    refine .inl (by_contra fun hne => ?_)
    simpa using h.writesOnlyListed.mem hne

theorem Effect.mem_wf {i : Instr} {s t : State} (h : Effect s t i) (hm : s.mem.wf = true) : t.mem.wf = true := by
  obtain hmem | ⟨bytes, u, hstore, hmem⟩ := h.mem_cases
  · rwa [hmem]
  · rw [hmem]
    exact State.storeAtI_wf hstore hm

/-- Rule R69: under the policy `Fault` a store that succeeds meets no byte of the font region. -/
theorem State.storeAtI_read_font {s t : State} {bytes : List Byte} (h : s.storeAtI bytes = .ok t)
    (hm : s.mem.wf = true) (hpolicy : s.params.fontWritePolicy = .fault) {a : Nat} (hge : 0x050 ≤ a) (hle : a ≤ 0x09F) :
    t.mem.read a = s.mem.read a := by
  obtain ⟨hrange, hfont, rfl⟩ := State.storeAtI_ok h
  have hmiss : ¬ meetsFont s.idx bytes.length = true := fun hmeets => hfont ⟨hpolicy, hmeets⟩
  rcases outOfRange_eq_false.1 hrange with hend | hnil
  · refine Memory.read_writeBytes_outside hm hend ?_
    by_contra hcon
    exact hmiss (meetsFont_eq_true.2 ⟨a - s.idx.toNat, by omega, by omega, by omega⟩)
  · rw [List.length_eq_zero_iff.1 hnil]
    rfl

theorem Effect.read_font {i : Instr} {s t : State} (h : Effect s t i) (hm : s.mem.wf = true)
    (hpolicy : s.params.fontWritePolicy = .fault) {a : Nat} (hge : 0x050 ≤ a) (hle : a ≤ 0x09F) :
    t.mem.read a = s.mem.read a := by
  obtain hmem | ⟨bytes, u, hstore, hmem⟩ := h.mem_cases
  · rw [hmem]
  · rw [hmem, State.storeAtI_read_font hstore hm hpolicy hge hle]

/-- Settles O51 (rules R65, R69). -/
theorem fontRegionIsNeverMutated : Obligations.FontRegionIsNeverMutated := by
  intro s t hm hpolicy hstep a hge hle
  by_cases ht : t.halt = .running
  · obtain ⟨i, u, -, -, heffect, rfl⟩ := step_running hstep ht
    exact heffect.read_font (s := s.advance) hm hpolicy hge hle
  · rw [step_halting hstep ht]

/-! `PC` and the return addresses (rules R23, R121). -/

/-- Rule R121: every return address held is at most 0x1000. -/
def State.ReturnsBounded (s : State) : Prop := ∀ (k : Nat) (h : k < 16), k < s.sp.val → s.stack[k].toNat ≤ 0x1000

/-- Rule R123: a 12-bit target is at most 0xFFF. -/
theorem toNat_addrOfImm_le (nnn : Addr12) : (addrOfImm nnn).toNat ≤ 0xFFF := by
  rw [toNat_addrOfImm]
  omega

/-- Rule R24: a skip from an advanced `PC`. -/
theorem State.skipIf_pc_le {s : State} (h : s.pc.toNat ≤ 0x1000) (c : Bool) : (s.skipIf c).pc.toNat ≤ 0x1002 := by
  cases c
  · exact Nat.le_trans h (by decide)
  · change (s.pc + 2).toNat ≤ 0x1002
    bv_omega

/-- Rule R212: the key wait leaves `PC` or takes it back to the instruction. -/
theorem State.keyWait_pc (s : State) (x : Nibble) : (s.keyWait x).pc = s.pc ∨ (s.keyWait x).pc = s.pc - 2 := by
  unfold State.keyWait
  split
  · split <;> exact .inr rfl
  · split
    · exact .inr rfl
    · exact .inl rfl

theorem Effect.pc_le {i : Instr} {s t : State} (h : Effect s t i) (hge : 2 ≤ s.pc.toNat) (hle : s.pc.toNat ≤ 0x1000)
    (hstack : s.ReturnsBounded) : t.pc.toNat ≤ 0x10FE := by
  cases i
  case ret =>
    obtain ⟨hs, rfl⟩ := h
    exact Nat.le_trans (hstack _ (by omega) (by omega)) (by decide)
  case jp nnn =>
    subst h
    exact Nat.le_trans (toNat_addrOfImm_le nnn) (by decide)
  case call nnn =>
    obtain ⟨-, rfl⟩ := h
    exact Nat.le_trans (toNat_addrOfImm_le nnn) (by decide)
  case jpV0 nnn =>
    subst h
    rw [State.setPc_pc, toNat_addrOfImm_add_byte]
    omega
  case seImm | sneImm | seReg | sneReg =>
    obtain ⟨c, rfl⟩ := h
    exact Nat.le_trans (State.skipIf_pc_le hle c) (by decide)
  case skp | sknp =>
    obtain ⟨c, rfl⟩ := h
    exact Nat.le_trans (State.skipIf_pc_le (s := s.keysTaken) hle c) (by decide)
  case ldVxK x =>
    subst h
    obtain hpc | hpc := s.keyWait_pc x <;> rw [hpc]
    · omega
    · bv_omega
  all_goals
    have hpc : t.pc = s.pc := by
      by_contra hne
      simpa using h.writesOnlyListed.pc hne
    rw [hpc]
    omega

theorem Effect.returnsBounded {i : Instr} {s t : State} (h : Effect s t i) (hle : s.pc.toNat ≤ 0x1000)
    (hstack : s.ReturnsBounded) : t.ReturnsBounded := by
  cases i
  case ret =>
    obtain ⟨hs, rfl⟩ := h
    exact fun k hk hlt => hstack k hk (Nat.lt_of_lt_of_le hlt (Nat.sub_le _ _))
  case call =>
    obtain ⟨hs, rfl⟩ := h
    intro k hk hlt
    by_cases htop : k = s.sp.val
    · subst htop
      simpa using hle
    · rw [Vector.getElem_set_ne _ _ (Ne.symm htop)]
      exact hstack k hk (Nat.lt_of_le_of_ne (Nat.le_of_lt_succ hlt) htop)
  all_goals
    have hsame : ¬(t.stack ≠ s.stack ∨ t.sp ≠ s.sp) := fun hne => by simpa using h.writesOnlyListed.stack hne
    rw [not_or, not_not, not_not] at hsame
    rw [State.ReturnsBounded, hsame.1, hsame.2]
    exact hstack

/-- Rule R102: the advanced `PC`. -/
theorem State.advance_pc_toNat {s : State} (h : s.pc.toNat ≤ 4094) : s.advance.pc.toNat = s.pc.toNat + 2 := by
  change (s.pc + 2).toNat = _
  bv_omega

/-- Settles O48 (rules R23, R32, R121; log entry 12): a step that halts changes none of the four, one that completes is an
instruction's effect on the advanced state. -/
theorem stepKeepsTheInvariant : Obligations.StepKeepsTheInvariant := by
  intro s t ⟨hmem, hcyc, hpc, hstack⟩ hstep
  by_cases ht : t.halt = .running
  · obtain ⟨hipf, hcyc'⟩ := step_cyc hcyc hstep ht
    obtain ⟨i, u, hp, -, heffect, rfl⟩ := step_running hstep ht
    have hadv := State.advance_pc_toNat hp
    exact {
      memWf := heffect.mem_wf (s := s.advance) hmem
      cycBound := by rw [hipf, hcyc']; exact Nat.mod_lt _ (Nat.zero_lt_of_lt hcyc)
      pcBound := heffect.pc_le (by omega) (by omega) hstack
      stackAddr := heffect.returnsBounded (by omega) hstack }
  · rw [step_halting hstep ht]
    exact ⟨hmem, hcyc, hpc, hstack⟩

/-- Settles O49 (log entries 1, 5): `IPF` is one more than a free value. -/
theorem resetMeetsTheInvariant : Obligations.ResetMeetsTheInvariant :=
  ⟨rfl, Nat.succ_pos _, by decide, fun _ _ h => absurd h (Nat.not_lt_zero _)⟩

end Sys2Proof.Machine
end

section
/-! PROOFS. What an instruction does not read: the mode other than through its quirks, `BEEP`, `CYC` and the record of port
events (rules R29, R32, R33). -/

namespace Sys2Proof.Machine

open Sys2Proof.Claims

/-- Other values for what an instruction does not read: the mode, `BEEP`, `CYC`, and the events recorded before. -/
structure Unread where
  mode : Mode
  beep : Bool
  cyc  : Nat
  past : List PortEvent

/-- The state with these values; the events that it holds stay the newest. -/
def State.veil (s : State) (d : Unread) : State :=
  { s with mode := d.mode, beep := d.beep, cyc := d.cyc, portLog := s.portLog ++ d.past }

/-! The operations commute with the veil, those that consult the mode where the quirks are the same. -/

section
variable (s : State) (d : Unread)

theorem State.skipIf_veil (c : Bool) : (s.veil d).skipIf c = (s.skipIf c).veil d := by cases c <;> rfl

theorem State.pop_veil : (s.veil d).pop = s.pop.map fun (a, t) => (a, t.veil d) := by
  unfold State.pop
  rw [apply_dite (Except.map _)]
  rfl

theorem State.push_veil (a : Word) : (s.veil d).push a = (s.push a).map (·.veil d) := by
  unfold State.push
  rw [apply_dite (Except.map _)]
  rfl

theorem State.storeAtI_veil (bytes : List Byte) : (s.veil d).storeAtI bytes = (s.storeAtI bytes).map (·.veil d) := by
  unfold State.storeAtI
  rw [apply_ite (Except.map _), apply_ite (Except.map _)]
  rfl

theorem State.keyTest_veil (v : Byte) : (s.veil d).keyTest v = (s.keyTest v).map fun (b, t) => (b, t.veil d) := by
  unfold State.keyTest
  rw [apply_ite (Except.map _)]
  change (if v.toNat ≤ 15 then _ else match s.params.keyIndexPolicy with | .fault => _ | .notHeld => _) = _
  cases s.params.keyIndexPolicy <;> rfl

theorem State.writeRF_veil (x : Nibble) (r f : Byte) : (s.veil d).writeRF x r f = (s.writeRF x r f).veil d := by
  unfold State.writeRF
  change (match s.params.vfOrder with | .flagLast => _ | .resultLast => _) = _
  cases s.params.vfOrder <;> rfl

theorem State.writeIndexFlag_veil (t : Nat) : (s.veil d).writeIndexFlag t = (s.writeIndexFlag t).veil d := by
  unfold State.writeIndexFlag
  rw [apply_ite (State.veil · d)]
  change (if t > 0xFFF then _ else match s.params.fx1eNoOverflow with | .keep => _ | .clear => _) = _
  cases s.params.fx1eNoOverflow <;> rfl

theorem State.keyWait_veil (x : Nibble) : (s.veil d).keyWait x = (s.keyWait x).veil d := by
  unfold State.keyWait
  rw [show (s.veil d).latch = s.latch from rfl]
  cases s.latch <;> dsimp only <;> rw [apply_ite (State.veil · d)] <;> rfl

variable {s d}

theorem State.shiftSource_veil (h : (s.veil d).quirks = s.quirks) (x y : Nibble) :
    (s.veil d).shiftSource x y = s.shiftSource x y := by
  unfold State.shiftSource
  rw [h]
  rfl

theorem State.writeLogic_veil (h : (s.veil d).quirks = s.quirks) (x : Nibble) (r : Byte) :
    (s.veil d).writeLogic x r = (s.writeLogic x r).veil d := by
  unfold State.writeLogic
  rw [h, apply_ite (State.veil · d), State.writeRF_veil]
  rfl

theorem State.applyMemInc_veil (h : (s.veil d).quirks = s.quirks) (x : Nibble) :
    (s.veil d).applyMemInc x = (s.applyMemInc x).veil d := by
  unfold State.applyMemInc
  rw [h]
  cases s.quirks.memInc <;> rfl

end

/-- An instruction runs alike under the veil, and where it consults the mode, under the same quirks. -/
theorem exec_veil (i : Instr) (s : State) (d : Unread) (h : consultsMode i = false ∨ (s.veil d).quirks = s.quirks) :
    exec i (s.veil d) = mapNext (·.veil d) (exec i s) := by
  cases i
  case ret =>
    simp only [exec, execRet, State.pop_veil]
    cases s.pop <;> rfl
  case call =>
    simp only [exec, execCall]
    rw [show (s.veil d).push (s.veil d).pc = _ from s.push_veil d s.pc]
    cases s.push s.pc <;> rfl
  case seImm | sneImm | seReg | sneReg => exact congrArg Host.Outcome.next (s.skipIf_veil d _)
  case skp x | sknp x =>
    simp only [exec, execSkp, execSknp]
    rw [show (s.veil d).keyTest ((s.veil d).getV x) = _ from s.keyTest_veil d (s.getV x)]
    cases s.keyTest (s.getV x) with
    | ok a => exact congrArg Host.Outcome.next (a.2.skipIf_veil d _)
    | error e => rfl
  case orReg | andReg | xorReg =>
    exact congrArg Host.Outcome.next (State.writeLogic_veil (h.resolve_left nofun) _ _)
  case addReg | subReg | subnReg => exact congrArg Host.Outcome.next (s.writeRF_veil d _ _ _)
  case shrReg | shlReg =>
    simp only [exec, execShrReg, execShlReg, State.shiftSource_veil (h.resolve_left nofun)]
    exact congrArg Host.Outcome.next (s.writeRF_veil d _ _ _)
  case drw =>
    simp only [exec, execDrw]
    rw [show (s.veil d).loadAtI _ = s.loadAtI _ from rfl]
    cases s.loadAtI _ <;> rfl
  case ldVxK x => exact congrArg Host.Outcome.next (s.keyWait_veil d x)
  case addI x =>
    exact congrArg Host.Outcome.next (State.writeIndexFlag_veil (s.setI _) d (indexSum s.idx (s.getV x)))
  case ldF x =>
    simp only [exec, execLdF]
    rw [show (s.veil d).glyphOf ((s.veil d).getV x) = s.glyphOf (s.getV x) from rfl]
    cases s.glyphOf (s.getV x) <;> rfl
  case ldB x =>
    simp only [exec, execLdB, State.storeAtI_veil]
    rw [show (s.veil d).getV x = s.getV x from rfl]
    cases s.storeAtI (decimalDigits (s.getV x)) <;> rfl
  case storeRegs x =>
    simp only [exec, execStoreRegs, State.storeAtI_veil]
    rw [show (s.veil d).firstRegs (x.toNat + 1) = s.firstRegs (x.toNat + 1) from rfl]
    cases hstore : s.storeAtI (s.firstRegs (x.toNat + 1)) with
    | ok t =>
      have hquirks : (t.veil d).quirks = t.quirks := by
        obtain ⟨-, -, rfl⟩ := State.storeAtI_ok hstore
        exact h.resolve_left nofun
      exact congrArg Host.Outcome.next (State.applyMemInc_veil hquirks x)
    | error e => rfl
  case loadRegs x =>
    simp only [exec, execLoadRegs]
    rw [show (s.veil d).loadAtI _ = s.loadAtI _ from rfl]
    cases s.loadAtI (x.toNat + 1) with
    | ok bytes =>
      exact congrArg Host.Outcome.next
        (State.applyMemInc_veil (s := { s with v := fillRegs s.v 0 bytes }) (h.resolve_left nofun) x)
    | error e => rfl
  all_goals rfl

/-- Rules R29, R32, R33: no outcome of an instruction changes the mode, a parameter, `CYC` or `BEEP`. -/
theorem exec_keeps {i : Instr} {s t : State} (h : exec i s = .next t) :
    t.mode = s.mode ∧ t.params = s.params ∧ t.cyc = s.cyc ∧ t.beep = s.beep := by
  obtain he | ⟨code, rfl⟩ := exec_next h
  · exact ⟨he.writesOnlyListed.mode, he.writesOnlyListed.params, he.writesOnlyListed.cyc, he.writesOnlyListed.beep⟩
  · exact ⟨rfl, rfl, rfl, rfl⟩

/-- Settles O50 (rules R6, R29): a change of the mode alone is a veil. -/
theorem modeIsReadOnlyAndReadThroughQuirks : Obligations.ModeIsReadOnlyAndReadThroughQuirks := by
  refine ⟨fun s t hstep => ?_, fun i s m h => ?_⟩
  · by_cases ht : t.halt = .running
    · obtain ⟨i, u, -, -, heffect, rfl⟩ := step_running hstep ht
      exact ⟨heffect.writesOnlyListed.mode, heffect.writesOnlyListed.params⟩
    · rw [step_halting hstep ht]
      exact ⟨rfl, rfl⟩
  · have hveil (t : State) (hcyc : t.cyc = s.cyc) (hbeep : t.beep = s.beep) :
        t.veil ⟨m, s.beep, s.cyc, []⟩ = { t with mode := m } := by
      rw [State.veil, List.append_nil, ← hcyc, ← hbeep]
    rw [← hveil s rfl rfl] at h ⊢
    obtain ⟨t, ht⟩ := everyInstructionAnswers i s
    obtain ⟨-, -, hcyc, hbeep⟩ := exec_keeps ht
    rw [exec_veil i s _ h, ht]
    exact congrArg Host.Outcome.next (hveil t hcyc hbeep)

/-- Settles O54 (rules R32, R33): both runs are runs, under two veils, of the state with no event recorded. -/
theorem outputsAreNeverReadBack : Obligations.OutputsAreNeverReadBack := by
  intro i s b c log
  obtain ⟨t, ht⟩ := everyInstructionAnswers i { s with portLog := [] }
  have hrun (d : Unread) (hd : d.mode = s.mode) :
      exec i (State.veil { s with portLog := [] } d) = .next (t.veil d) := by
    rw [exec_veil i _ d (.inr (by simp only [State.quirks, State.veil, hd])), ht]
    rfl
  refine ⟨t.veil ⟨s.mode, s.beep, s.cyc, s.portLog⟩, t.portLog, hrun ⟨s.mode, s.beep, s.cyc, s.portLog⟩ rfl, rfl,
    hrun ⟨s.mode, b, c, log⟩ rfl⟩

end Sys2Proof.Machine
end

section
/-! PROOFS. Initialisation (rules R40, R62, R280, R281). -/

namespace Sys2Proof.Machine

/-- A byte string written, read with a default past its end. -/
theorem Memory.read_writeBytes_getD {m : Memory} {a : Nat} {bs : List Byte} (hm : m.wf = true)
    (hr : a + bs.length ≤ memorySize) (a' : Nat) :
    (m.writeBytes a bs).read a' = if a ≤ a' ∧ a' < a + bs.length then bs.getD (a' - a) 0 else m.read a' := by
  rw [Memory.read_writeBytes bs hm hr]
  split
  · exact (List.getD_eq_getElem _ _ _).symm
  · rfl

/-! Memory after initialisation, step by step (rule R280). -/

theorem Memory.wf_zeroed : Memory.zeroed.wf = true :=
  Memory.wf_writeBytes (List.replicate 80 0) rfl (by rw [List.length_replicate]; decide)

theorem Memory.read_zeroed (a : Nat) : Memory.zeroed.read a = 0 := by
  have hlen : (List.replicate 80 (0 : Byte)).length = 80 := List.length_replicate
  rw [Memory.zeroed, Memory.read_writeBytes_getD rfl (by rw [hlen]; decide), hlen]
  split
  case isTrue h => exact List.getD_replicate 0 (by omega)
  case isFalse h => exact if_neg fun hfont => h ⟨hfont.1, hfont.2⟩

section
variable (font : Vector Byte 80) (image : List Byte)

theorem font_fits : fontBase + font.toList.length ≤ memorySize := by rw [Vector.length_toList]; decide

theorem wf_writeBytes_font : (Memory.zeroed.writeBytes fontBase font.toList).wf = true :=
  Memory.wf_writeBytes font.toList Memory.wf_zeroed (font_fits font)

variable {image} (h : image.length ≤ 3584)
include h

theorem image_fits : 0x200 + image.length ≤ memorySize := by rw [memorySize]; omega

theorem bootMemory_wf : (bootMemory font image).wf = true :=
  Memory.wf_writeBytes image (wf_writeBytes_font font) (image_fits h)

/-- Rules R40, R280: each cell after initialisation. -/
theorem bootMemory_read (a : Nat) :
    (bootMemory font image).read a =
      if 0x200 ≤ a then image.getD (a - 0x200) 0
      else if 0x050 ≤ a ∧ a ≤ 0x09F then font.toList.getD (a - 0x050) 0 else 0 := by
  have hfont : (Memory.zeroed.writeBytes fontBase font.toList).read a =
      if 0x050 ≤ a ∧ a ≤ 0x09F then font.toList.getD (a - 0x050) 0 else 0 := by
    rw [Memory.read_writeBytes_getD Memory.wf_zeroed (font_fits font), Memory.read_zeroed, Vector.length_toList]
    exact if_congr (and_congr_right fun _ => Nat.lt_succ_iff) rfl rfl
  rw [bootMemory, Memory.read_writeBytes_getD (wf_writeBytes_font font) (image_fits h), hfont]
  by_cases hlow : 0x200 ≤ a
  · rw [if_pos hlow]
    by_cases hin : a < 0x200 + image.length
    · rw [if_pos ⟨hlow, hin⟩]
    · rw [if_neg fun hc => hin hc.2, if_neg (by omega), List.getD_eq_default _ _ (by omega)]
  · rw [if_neg fun hc => hlow hc.1, if_neg hlow]

end

/-- Rule R281: the three selectors. -/
theorem modeOfSelector_of_le {sel : Nat} (h : sel ≤ 2) :
    modeOfSelector sel = some (if sel = 0 then .chip8 else if sel = 1 then .schip else .xochip) := by
  interval_cases sel <;> rfl

theorem modeOfSelector_of_gt {sel : Nat} (h : 2 < sel) : modeOfSelector sel = none := by
  obtain ⟨k, rfl⟩ := Nat.exists_eq_add_of_le h
  rw [Nat.add_comm]
  rfl

theorem boot_loads (p : Params) (font : Vector Byte 80) {image : List Byte} {sel : Nat} (hsel : sel ≤ 2)
    (h : image.length ≤ 3584) :
    boot p font image sel = .ok { State.reset with
      mem := bootMemory font image, params := p,
      mode := if sel = 0 then .chip8 else if sel = 1 then .schip else .xochip } := by
  simp only [boot, modeOfSelector_of_le hsel]
  rw [if_neg (by omega)]

/-- Settles O55 (rules R40, R62, R280, R281). -/
theorem initialisationGivesTheResetValues : Obligations.InitialisationGivesTheResetValues := by
  intro p font image sel
  refine ⟨fun hsel => ?_, fun hsel hlen => ?_, fun hsel hlen => ⟨_, boot_loads p font hsel hlen,
    bootMemory_wf font hlen, fun a _ => bootMemory_read font hlen a, rfl, fun k => ?_, rfl, rfl, rfl, rfl, rfl, rfl, rfl,
    rfl, fun r c => Framebuffer.pixel_blank r c, rfl, rfl, rfl⟩⟩
  · simp only [boot, modeOfSelector_of_gt hsel]
  · simp only [boot, modeOfSelector_of_le hsel]
    rw [if_pos (by omega)]
  · simp [State.getV, State.reset]

/-- The reset state lists no cell: the default font and zeros are what unlisted cells read as (log entry 12). -/
theorem bootMemory_default : bootMemory defaultFont [] = [] := by
  have hlen : ([] : List Byte).length ≤ 3584 := Nat.zero_le _
  refine equalMemoriesAreEqualData _ _ (bootMemory_wf defaultFont hlen) rfl fun a _ => ?_
  rw [bootMemory_read defaultFont hlen, Memory.read, Memory.unlisted]
  by_cases hlow : 0x200 ≤ a
  · rw [if_pos hlow, if_neg (by simp only [fontEnd]; omega)]
    rfl
  · rw [if_neg hlow]
    exact if_congr (and_congr_right fun _ => Nat.lt_succ_iff.symm) rfl rfl

/-- Settles O56 (log entry 5). -/
theorem resetIsInitialisationOfNoProgram : Obligations.ResetIsInitialisationOfNoProgram := by
  rw [Obligations.ResetIsInitialisationOfNoProgram, boot_loads _ _ (by decide) (by decide), bootMemory_default]
  rfl

end Sys2Proof.Machine
end
